-- ==== Sys2Proof/Word.lean ====
section
/-! DEFINITION. The words, levels and names every other file uses: the byte, the 10-bit command word, line levels,
the drive direction, the four operations and the events of the line. -/

namespace Sys2Proof

/-- A byte, bit 0 least significant (spec/00_scope.md section 7). -/
abbrev Byte := BitVec 8

/-- The 10-bit command word `CW` = op, wdata (R50). -/
abbrev CommandWord := BitVec 10

/-- A level of a line: `true` is high and 1, `false` is low and 0 (R31, decision D28). -/
abbrev Level := Bool

/-- The level 1. -/
abbrev high : Level := true

/-- The level 0. -/
abbrev low : Level := false

/-- The drive direction of the data line (R18): `output`, the codec drives it; `input`, it does not. -/
inductive Dir where
  | input
  | output
  deriving DecidableEq, Repr

/-- The four frame operations, as the `op` field and the element `OPL` name them (R12, R51). -/
inductive OpSel where
  | ctrl
  | null
  | dout
  | din
  deriving DecidableEq, Repr

/-- One event of the two lines, as the history that `env` answers from records it (R38): each clock edge with the
direction and the output latch at that edge, each sample with the level it read, and each reset with the clock level it
found (R111: a reset with the clock high is a falling edge to the target). Samples and resets are the model's addition to
R38's list (log 3). -/
inductive LineEvent where
  | rise (dir : Dir) (dout : Level)
  | fall (dir : Dir) (dout : Level)
  | sample (level : Level)
  | reset (clk : Level)
  deriving DecidableEq, Repr

end Sys2Proof
end

