-- ==== Sys2Proof/Syntax.lean ====
section
/-! DEFINITION. The instruction syntax: one constructor for each row of spec/opcode_table.json. -/

namespace Sys2Proof

/-- The frame operations the host can command (R51, R62). `null` and `din` carry the `wdata` that stood on the port:
it never reaches the line or RXD, but START loads it into SR (R13, R60). -/
inductive Instr where
  | ctrl (payload : Byte)
  | null (wdata : Byte)
  | dout (payload : Byte)
  | din (wdata : Byte)
  deriving DecidableEq, Repr

end Sys2Proof
end

