-- ==== Sys2Proof/Decode.lean ====
section
/-! DEFINITION. Decoding the 10-bit command word and encoding it again (R50, R51, R60). -/

namespace Sys2Proof

/-- Why a number is not decoded. No 10-bit command word is refused (R60). -/
inductive DecodeError where
  /-- The number has a bit above `CW[9]`, so it is no command word (R50: the format has 10 bits). -/
  | notACommandWord
  deriving DecidableEq, Repr

/-- The code of an operation, the `op` field (R51). -/
def OpSel.code : OpSel → BitVec 2
  | .ctrl => 0#2
  | .null => 1#2
  | .dout => 2#2
  | .din => 3#2

/-- The operation an `op` field selects; all four values are used (R51). -/
def OpSel.ofCode (c : BitVec 2) : OpSel :=
  if c = 0#2 then .ctrl else if c = 1#2 then .null else if c = 2#2 then .dout else .din

/-- The operation an instruction commands. -/
def Instr.opSel : Instr → OpSel
  | .ctrl _ => .ctrl
  | .null _ => .null
  | .dout _ => .dout
  | .din _ => .din

/-- The byte an instruction puts on the `wdata` port. -/
def Instr.wdata : Instr → Byte
  | .ctrl b => b
  | .null w => w
  | .dout b => b
  | .din w => w

/-- `CW[9:8]` (R50). -/
def CommandWord.op (w : CommandWord) : BitVec 2 := w.extractLsb' 8 2

/-- `CW[7:0]` (R50). -/
def CommandWord.wdata (w : CommandWord) : Byte := w.extractLsb' 0 8

/-- The instruction of an operation and its byte. -/
def Instr.ofParts (op : OpSel) (b : Byte) : Instr :=
  match op with
  | .ctrl => .ctrl b
  | .null => .null b
  | .dout => .dout b
  | .din => .din b

/-- Decode a command word; every word has a meaning (R51, R60). -/
def decodeWord (w : CommandWord) : Instr :=
  Instr.ofParts (OpSel.ofCode w.op) w.wdata

/-- Decode any number: a number of more than 10 bits is rejected by name. -/
def decode (n : Nat) : Except DecodeError Instr :=
  if n < 1024 then .ok (decodeWord (BitVec.ofNat 10 n)) else .error .notACommandWord

/-- The command word of an instruction: `op` in the upper two bits, `wdata` in the lower eight (R50, R51). -/
def encode (i : Instr) : CommandWord := i.opSel.code ++ i.wdata

/-- What the decoder reads from a table row's instruction: `w` is the command word as a number, bit 0 its least
significant bit, `nbits` how many bits of it are given; bits above `nbits` are 0. -/
def decodeTableWord (nbits w : Nat) : Option Instr :=
  match decode (w % 2 ^ nbits) with
  | .ok i => some i
  | .error _ => none

end Sys2Proof
end

