-- ==== Sys2Proof/Machine/Operands.lean ====
section
/-! DEFINITION. The one operand form, a byte: its bits in the order of the wire, a bit put into a byte, and the byte made
of eight levels (R31, R57, R58, R87). -/

namespace Sys2Proof.Machine

/-- Bit extraction, `SR[i] = (SR >> i) & 1` (R57, R87). -/
def bitOf (b : Byte) (i : Fin 8) : Level := (b >>> i.val) &&& 1#8 == 1#8

/-- Bit insertion, `SR <- (SR & ~(1 << i)) | (v << i)` (R77, R87). -/
def insertBit (b : Byte) (i : Fin 8) (v : Level) : Byte :=
  (b &&& ~~~(1#8 <<< i.val)) ||| ((BitVec.ofBool v).setWidth 8 <<< i.val)

/-- The bit indexes in the order they cross the wire: least significant first (R31). -/
def wireOrder : List (Fin 8) := [0, 1, 2, 3, 4, 5, 6, 7]

/-- The levels of a byte in the order they cross the wire (R31, R57). -/
def bitsOfByte (b : Byte) : List Level := wireOrder.map (bitOf b)

/-- The number made of levels, the first of them bit 0: `sum over i of (v_i << i)` (R58). -/
def sumOfBits : List Level → Nat
  | [] => 0
  | v :: vs => v.toNat + 2 * sumOfBits vs

/-- The byte made of eight levels in wire order (R58). -/
def byteOfBits (vs : List Level) : Byte := BitVec.ofNat 8 (sumOfBits vs)

end Sys2Proof.Machine
end

