-- ==== Sys2Proof/Config.lean ====
section
/-! DEFINITION. What the spec fixes for every run (R5) and what it leaves open (R6): constants, and free values that
have no body, so that nothing can be proved of what they are. -/

namespace Sys2Proof

/-- Clock cycles of a frame, of every shape (R5). -/
def Config.frameCycles : Nat := 12

/-- Data cycles of a control or data frame (R5). -/
def Config.dataBits : Nat := 8

/-- `env` (R38, U2): the level of the data line when the codec does not drive it, an unconstrained function of the
history of line events (newest first). A FREE VALUE (log 3). -/
opaque Config.env : List LineEvent → Level

/-- `RXD_RESET` (R24, R110, U1): what RXD holds after a reset, free again for each reset, because the history it is
applied to ends in that reset; `Config.rxdReset []` is its value at `State.reset`. A FREE VALUE (log 1). -/
opaque Config.rxdReset : List LineEvent → Byte

/-- `T_SETUP` (R6, R120): left open, and read by no rule (log 6). -/
opaque Config.tSetup : Nat

/-- `T_HIGH` (R6, R120): left open, and read by no rule (log 6). -/
opaque Config.tHigh : Nat

/-- `T_LOW` (R6, R120): left open, and read by no rule (log 6). -/
opaque Config.tLow : Nat

/-- `T_GAP` (R6, R120): left open, and read by no rule (log 6). -/
opaque Config.tGap : Nat

end Sys2Proof
end

