-- ==== Sys2Proof/Machine/State.lean ====
section
/-! DEFINITION. The machine's state as plain data: the nine elements of R10, the line history that `env` answers from
(R38), and what the host presents on the command port at each coming step (R20). -/

namespace Sys2Proof.Machine

/-- The inputs of the command port at one step (R20). -/
structure PortIn where
  /-- reset request -/
  rst : Bool
  /-- command strobe -/
  start : Bool
  /-- operation select, read only at START -/
  op : BitVec 2
  /-- byte operand, read only at START -/
  wdata : Byte
  deriving DecidableEq, Repr

/-- Nothing is asserted. `op` and `wdata` are not read then (R42), so their value does not matter. -/
def PortIn.quiet : PortIn := { rst := false, start := false, op := 0, wdata := 0 }

/-- The state. `busy` to `rxd` are the codec's nine elements (R10); `hist` and `inputs` are the model's own. -/
structure State where
  /-- `BUSY` (R11): a frame operation is running -/
  busy : Bool
  /-- `OPL` (R12): the operation latched at START -/
  opl : OpSel
  /-- `SR` (R13): the byte being sent or assembled -/
  sr : Byte
  /-- `UPC` (R14): index of the next micro-operation -/
  upc : BitVec 6
  /-- `CNT` (R15): clock cycles completed in the current or last frame -/
  cnt : BitVec 4
  /-- `CLK` (R16): level of the clock line -/
  clk : Level
  /-- `DOUT` (R17): the data-line output latch -/
  dout : Level
  /-- `DIR` (R18): drive direction of the data line -/
  dir : Dir
  /-- `RXD` (R19): byte of the last completed input data frame -/
  rxd : Byte
  /-- the line events so far, newest first (R38; log 3) -/
  hist : List LineEvent
  /-- what the host presents at each coming step, the next one first; past the end nothing is asserted (log 2) -/
  inputs : List PortIn
  deriving DecidableEq, Repr

/-- The faults. The hardware has none (R100); this one is the model's own. -/
inductive Fault where
  /-- Raised by `codecStep` in a state with `BUSY = 1` and `UPC` past the end of the running micro-program. R79 says that no
  run reaches such a state, and gives it no step. Safe: the model stops where the spec says nothing. -/
  | upcPastEnd
  deriving DecidableEq, Repr

/-- The refusals. -/
inductive Refusal where
  /-- Raised by an arm of `exec` for an instruction that has no meaning yet; no arm does. Safe: the model stops. -/
  | notModelled (mnemonic : String)
  deriving DecidableEq, Repr

/-- The machine right after reset (R24). RXD is the spec's open parameter RXD_RESET, a free value (log 1); the line history
is empty (log 3) and the host presents nothing (log 2). -/
def State.reset : State where
  busy := false
  opl := .null
  sr := 0x00
  upc := 0
  cnt := 0
  clk := low
  dout := low
  dir := .input
  rxd := Config.rxdReset []
  hist := []
  inputs := []

end Sys2Proof.Machine
end

