-- ==== Sys2Proof/Machine/Ops.lean ====
section
/-! DEFINITION. The named operations over the state: what each step of an agent writes. There is no memory (R30) and no
exception to take or return from (R100, R103, R104); reset (R110) is the one operation that cuts a frame short. -/

namespace Sys2Proof.Machine

/-- `wire()`, the level of the data line: the latch while the codec drives, else what `env` answers to the line history
(R38, R44). -/
def State.wire (s : State) : Level :=
  match s.dir with
  | .output => s.dout
  | .input => Config.env s.hist

/-- Write the output latch; the direction does not change (R17, decision D9). -/
def State.setDout (v : Level) (s : State) : State := { s with dout := v }

/-- Write the drive direction; the latch does not change (R18, decision D9). -/
def State.setDir (d : Dir) (s : State) : State := { s with dir := d }

/-- The rising edge of the clock line (R75). -/
def State.clockRise (s : State) : State :=
  { s with clk := high, hist := .rise s.dir s.dout :: s.hist }

/-- The falling edge of the clock line, which ends a cycle (R76). -/
def State.clockFall (s : State) : State :=
  { s with clk := low, cnt := s.cnt + 1, hist := .fall s.dir s.dout :: s.hist }

/-- Sample the data line into bit `i` of SR (R77). -/
def State.sampleBit (i : Fin 8) (s : State) : State :=
  { s with sr := insertBit s.sr i s.wire, hist := .sample s.wire :: s.hist }

/-- Completion of a frame: `RXD <- SR` for DIN, `BUSY <- 0` for every operation (R86). -/
def State.finishFrame (s : State) : State :=
  { s with rxd := if s.opl = .din then s.sr else s.rxd, busy := false }

/-- `UPC <- UPC + 1` (R79). -/
def State.nextMicro (s : State) : State := { s with upc := s.upc + 1 }

/-- START (R80): accepted when `BUSY = 0`; ignored, with no change of state, when `BUSY = 1`. -/
def State.issue (op : OpSel) (b : Byte) (s : State) : State :=
  if s.busy then s else { s with busy := true, opl := op, sr := b, upc := 0, cnt := 0 }

/-- Reset (R110, R111): the nine elements at the values of R24, RXD at a value that is free for each reset. The line sees
the clock forced low and the data line released, which the history records. -/
def State.takeReset (s : State) : State :=
  { State.reset with
      rxd := Config.rxdReset (.reset s.clk :: s.hist)
      hist := .reset s.clk :: s.hist
      inputs := s.inputs }

/-- What the host presents at this step: the head of `inputs`, or nothing. -/
def State.port (s : State) : PortIn := s.inputs.headD PortIn.quiet

/-- The host's inputs of this step are used up; the ports do not remember them (R42, R80). -/
def State.passInputs (s : State) : State := { s with inputs := s.inputs.tail }

end Sys2Proof.Machine
end

