-- ==== Sys2Proof/Machine/Flags.lean ====
section
/-! DEFINITION. The output ports: the two flags BUSY and DIR and the received byte as the host sees them (R20), and the
pins of the two lines (R21). No arithmetic sets a flag (R87). Reading a port changes nothing (R36). -/

namespace Sys2Proof.Machine

/-- Port `busy` = BUSY (R11, R20). -/
def State.portBusy (s : State) : Bool := s.busy

/-- Port `rdata` = RXD (R19, R20). -/
def State.portRdata (s : State) : Byte := s.rxd

/-- Port `dir` = DIR, 1 = out (R18, R20). -/
def State.portDir (s : State) : Bool := s.dir == .output

/-- Port `sclk` = CLK, always driven (R16, R21). -/
def State.portSclk (s : State) : Level := s.clk

/-- Port `sdat_o` = DOUT (R21). -/
def State.portSdatO (s : State) : Level := s.dout

/-- Port `sdat_oe` = DIR (R21). -/
def State.portSdatOe (s : State) : Bool := s.dir == .output

/-- Port `sdat_i`, the level on the data line: `wire()` (R21, R38). -/
def State.portSdatI (s : State) : Level := s.wire

end Sys2Proof.Machine
end

