-- ==== Sys2Proof/Machine/MicroOp.lean ====
section
/-! DEFINITION. The line primitives, the indivisible steps of a frame (R70 to R77, R86). -/

namespace Sys2Proof.Machine

/-- A micro-operation. `db` and `sm` carry their bit index, a constant 0 to 7 of the micro-program (R72, R77). They have
no command-word encoding: the host cannot issue them. -/
inductive MicroOp where
  | dh
  | dl
  | db (i : Fin 8)
  | diro
  | diri
  | cr
  | cf
  | sm (i : Fin 8)
  | endFrame
  deriving DecidableEq, Repr

end Sys2Proof.Machine
end

