-- ==== Sys2Proof/Machine/Primitives.lean ====
section
/-! DEFINITION. The meaning of each line primitive (R70 to R77) and of END (R86), without the `UPC + 1` that every
micro-operation shares (R79). -/

namespace Sys2Proof.Machine

/-- `DH`: `DOUT <- 1` (R70). -/
def doDH (s : State) : State := s.setDout high

/-- `DL`: `DOUT <- 0` (R71). -/
def doDL (s : State) : State := s.setDout low

/-- `DB(i)`: `DOUT <- SR[i]` (R72). -/
def doDB (i : Fin 8) (s : State) : State := s.setDout (bitOf s.sr i)

/-- `DIRO`: `DIR <- out` (R73). -/
def doDIRO (s : State) : State := s.setDir .output

/-- `DIRI`: `DIR <- in` (R74). -/
def doDIRI (s : State) : State := s.setDir .input

/-- `CR`: `CLK <- 1` (R75). -/
def doCR (s : State) : State := s.clockRise

/-- `CF`: `CLK <- 0; CNT <- CNT + 1` (R76). -/
def doCF (s : State) : State := s.clockFall

/-- `SM(i)`: `SR[i] <- wire()` (R77). -/
def doSM (i : Fin 8) (s : State) : State := s.sampleBit i

/-- `END`: `if OPL = DIN then RXD <- SR; BUSY <- 0` (R86). -/
def doEND (s : State) : State := s.finishFrame

/-- Perform one micro-operation. -/
def perform (u : MicroOp) (s : State) : State :=
  match u with
  | .dh => doDH s
  | .dl => doDL s
  | .db i => doDB i s
  | .diro => doDIRO s
  | .diri => doDIRI s
  | .cr => doCR s
  | .cf => doCF s
  | .sm i => doSM i s
  | .endFrame => doEND s

end Sys2Proof.Machine
end

