-- ==== Sys2Proof/Machine/Frames.lean ====
section
/-! DEFINITION. The four frame operations: the micro-program of each (R81) and its meaning as an instruction, the START
that issues it (R80). -/

namespace Sys2Proof.Machine

/-- `PULSE = CR; CF` (R78). -/
def pulse : List MicroOp := [.cr, .cf]

/-- `PULSE_S(i) = CR; SM(i); CF` (R78). -/
def pulseSampling (i : Fin 8) : List MicroOp := [.cr, .sm i, .cf]

/-- The eight data cycles of a driven frame, `DB(i); PULSE` for i = 0 to 7 (R81). -/
def drivenData : List MicroOp := wireOrder.flatMap fun i => .db i :: pulse

/-- The eight data cycles of an input frame, `PULSE_S(i)` for i = 0 to 7 (R81). -/
def sampledData : List MicroOp := wireOrder.flatMap pulseSampling

/-- `mu(CTRL)`, 37 entries (R81): start bit high, type bit low, idle, data, trailing idle low. -/
def muCtrl : List MicroOp :=
  [.dh, .diro] ++ pulse ++ [.dl] ++ pulse ++ pulse ++ drivenData ++ [.dl] ++ pulse ++ [.endFrame]

/-- `mu(NULL)`, 26 entries (R81): the line an input for twelve pulses, nothing sampled. -/
def muNull : List MicroOp :=
  [.diri] ++ (List.replicate 12 pulse).flatten ++ [.endFrame]

/-- `mu(DOUT)`, 37 entries (R81): start bit and type bit high, idle low, data, trailing idle low. -/
def muDout : List MicroOp :=
  [.dh, .diro] ++ pulse ++ pulse ++ [.dl] ++ pulse ++ drivenData ++ [.dl] ++ pulse ++ [.endFrame]

/-- `mu(DIN)`, 36 entries (R81): start bit and type bit high, the direction switch at the end of cycle 2 (R115), then ten
cycles not driven, the eight data cycles among them sampled. -/
def muDin : List MicroOp :=
  [.dh, .diro] ++ pulse ++ pulse ++ [.diri] ++ pulse ++ sampledData ++ pulse ++ [.endFrame]

/-- The constant table `mu(op)` (R81). -/
def mu : OpSel → List MicroOp
  | .ctrl => muCtrl
  | .null => muNull
  | .dout => muDout
  | .din => muDin

/-- `CTRL b` presented with `start`: START of the control frame, whose micro-program `muCtrl` the codec then runs (R80,
R83); ignored while busy. -/
def execCtrl (payload : Byte) (s : State) : Host.Outcome State Fault Refusal :=
  .next (s.issue .ctrl payload)

/-- `NULL` presented with `start`: START of the null frame, whose micro-program `muNull` the codec then runs (R80, R82);
ignored while busy. -/
def execNull (wdata : Byte) (s : State) : Host.Outcome State Fault Refusal :=
  .next (s.issue .null wdata)

/-- `DOUT b` presented with `start`: START of the output data frame, whose micro-program `muDout` the codec then runs
(R80, R84); ignored while busy. -/
def execDout (payload : Byte) (s : State) : Host.Outcome State Fault Refusal :=
  .next (s.issue .dout payload)

/-- `DIN` presented with `start`: START of the input data frame, whose micro-program `muDin` the codec then runs (R80,
R85); ignored while busy. -/
def execDin (wdata : Byte) (s : State) : Host.Outcome State Fault Refusal :=
  .next (s.issue .din wdata)

end Sys2Proof.Machine
end

