-- ==== Sys2Proof/Machine/Codec.lean ====
section
/-! DEFINITION. The codec's own step (R79), and whose turn a step of the machine is (R102). -/

namespace Sys2Proof.Machine

/-- The micro-operation the codec performs next, `mu(OPL)[UPC]` (R79). -/
def State.nextOp (s : State) : Option MicroOp := (mu s.opl)[s.upc.toNat]?

/-- The codec's step, taken when `BUSY = 1`: perform `mu(OPL)[UPC]`, then `UPC <- UPC + 1`, one indivisible step (R79). -/
def codecStep (s : State) : Host.Outcome State Fault Refusal :=
  match s.nextOp with
  | some u => .next (perform u s).nextMicro
  | none => .fault .upcPastEnd

/-- Who acts in a step. -/
inductive Turn where
  | reset
  | codec
  | start (i : Instr)
  | nobody
  deriving DecidableEq, Repr

/-- Priority of simultaneous requests (R102): reset, then the codec's step when `BUSY = 1`, then `start`, which is read
with `op` and `wdata` as one command word (R50); with none of them nobody acts. -/
def nextTurn (p : PortIn) (busy : Bool) : Turn :=
  if p.rst then .reset
  else if busy then .codec
  else if p.start then .start (decodeWord (p.op ++ p.wdata))
  else .nobody

end Sys2Proof.Machine
end

