-- ==== Sys2Proof/Machine/Dispatch.lean ====
section
/-! DEFINITION. The meaning of each instruction: what its START does (R80). -/

namespace Sys2Proof.Machine

def exec (i : Instr) (s : State) : Host.Outcome State Fault Refusal :=
  match i with
  | .ctrl payload => Sys2Proof.Machine.execCtrl payload s
  | .null wdata => Sys2Proof.Machine.execNull wdata s
  | .dout payload => Sys2Proof.Machine.execDout payload s
  | .din wdata => Sys2Proof.Machine.execDin wdata s

end Sys2Proof.Machine
end

