-- ==== Sys2Proof/Machine/Step.lean ====
section
/-! DEFINITION. One step of the machine: the host's inputs of this step pass, and the agent whose turn it is acts. -/

namespace Sys2Proof.Machine

/-- One step (R8, R79, R80, R102, R110). When nobody acts the machine waits: only the host's inputs pass. -/
def step (s : State) : Host.Outcome State Fault Refusal :=
  match nextTurn s.port s.busy with
  | .reset => .next s.passInputs.takeReset
  | .codec => codecStep s.passInputs
  | .start i => exec i s.passInputs
  | .nobody => .next s.passInputs

/-- The host presents `start` with the command word `w` at the next step, and the codec is idle, so that the step accepts
it (log 7). Bits above `nbits`, and above the ten of the port, are dropped. -/
def State.withFetchWord (s : State) (nbits w : Nat) : State :=
  let cw : CommandWord := BitVec.ofNat 10 (w % 2 ^ nbits)
  { s with
      busy := false
      inputs := { rst := false, start := true, op := cw.op, wdata := cw.wdata } :: s.inputs.tail }

end Sys2Proof.Machine
end

