-- ==== Sys2Proof/Machine/Wire.lean ====
section
/-! DEFINITION. Reading the line history: the wire string of a frame (R52, spec/00_scope.md section 7), the clock edges in
it, and the reference frame decoder `FrameDecode` (R64). -/

namespace Sys2Proof.Machine

/-- One cycle of a frame on the wire: driven by the codec at a level, not driven and not sampled (`z`), or not driven and
sampled at a level (`s0`, `s1`). An undriven cycle has no level of its own (U9). -/
inductive WireSym where
  | driven (level : Level)
  | undriven
  | sampled (level : Level)
  deriving DecidableEq, Repr

/-- The wire string of a stretch of line events in time order: one symbol for each whole cycle, a rising edge and its
falling edge. -/
def wireOf : List LineEvent → List WireSym
  | .rise .output v :: .fall .output _ :: es => .driven v :: wireOf es
  | .rise .input _ :: .fall .input _ :: es => .undriven :: wireOf es
  | .rise .input _ :: .sample v :: .fall .input _ :: es => .sampled v :: wireOf es
  | _ :: es => wireOf es
  | [] => []

/-- The clock edges of a stretch of line events: `high` for a rising edge, `low` for a falling one. -/
def edgesOf (es : List LineEvent) : List Level :=
  es.filterMap fun e =>
    match e with
    | .rise _ _ => some high
    | .fall _ _ => some low
    | .sample _ => none
    | .reset _ => none

/-- The levels sampled in a stretch of line events, in time order. -/
def samplesOf (es : List LineEvent) : List Level :=
  es.filterMap fun e =>
    match e with
    | .sample v => some v
    | .rise _ _ => none
    | .fall _ _ => none
    | .reset _ => none

/-- The direction and the latch at each clock edge, in time order. -/
def lineAtEdges (es : List LineEvent) : List (Dir × Level) :=
  es.filterMap fun e =>
    match e with
    | .rise d v => some (d, v)
    | .fall d v => some (d, v)
    | .sample _ => none
    | .reset _ => none

/-- The levels of a wire string whose every cycle is driven; `none` if one is not. -/
def drivenLevels : List WireSym → Option (List Level)
  | [] => some []
  | .driven v :: ws => (drivenLevels ws).map (v :: ·)
  | .undriven :: _ => none
  | .sampled _ :: _ => none

/-- The type a receiver reads from cycle 2 (R59, R64). -/
inductive FrameType where
  | control
  | data
  deriving DecidableEq, Repr

/-- What the reference decoder answers (R64). -/
inductive FrameResult where
  | noFrame
  | frame (type : FrameType) (byte : Byte)
  deriving DecidableEq, Repr

/-- `FrameDecode` on the twelve levels of a codec-driven frame, cycle 1 first; cycles 3 and 12 are not examined (R64). A
list that is not of twelve levels is no frame. -/
def frameDecode : List Level → FrameResult
  | [l1, l2, _, b0, b1, b2, b3, b4, b5, b6, b7, _] =>
    if l1 then .frame (if l2 then .data else .control) (byteOfBits [b0, b1, b2, b3, b4, b5, b6, b7]) else .noFrame
  | _ => .noFrame

end Sys2Proof.Machine
end

