-- ==== Sys2Proof/Machine/FrameLevel.lean ====
section
/-! DEFINITION. The frame-level summary of each operation: its twelve cycles (R53 to R56) and the state after END (R82 to
R85), written from the frame tables and not from the micro-programs. -/

namespace Sys2Proof.Machine

/-- One cycle of a frame: the direction, the output latch (on the line only when the codec drives), and whether the cycle
is sampled. -/
structure Cycle where
  dir : Dir
  latch : Level
  sampled : Bool
  deriving DecidableEq, Repr

/-- A cycle the codec drives at a level. -/
def drivenCycle (v : Level) : Cycle := { dir := .output, latch := v, sampled := false }

/-- A cycle the codec neither drives nor samples, with the latch at `v`. -/
def idleCycle (v : Level) : Cycle := { dir := .input, latch := v, sampled := false }

/-- A data cycle the codec samples, with the latch at `v`. -/
def sampledCycle (v : Level) : Cycle := { dir := .input, latch := v, sampled := true }

/-- The twelve cycles of an operation's frame (R53 to R56), issued with the latch at `latch`: NULL keeps it, DIN leaves it
at the start level (R82, R85). -/
def cyclesOf (i : Instr) (latch : Level) : List Cycle :=
  match i with
  | .ctrl b =>
    [drivenCycle high, drivenCycle low, drivenCycle low] ++ (bitsOfByte b).map drivenCycle ++ [drivenCycle low]
  | .null _ => List.replicate 12 (idleCycle latch)
  | .dout b =>
    [drivenCycle high, drivenCycle high, drivenCycle low] ++ (bitsOfByte b).map drivenCycle ++ [drivenCycle low]
  | .din _ =>
    [drivenCycle high, drivenCycle high, idleCycle high] ++ List.replicate 8 (sampledCycle high) ++ [idleCycle high]

/-- Play cycles on the line after a history (newest first): the history after them, and the levels sampled in time order.
A sample reads the latch if the codec drives, else what `env` answers after the cycle's rising edge (R38, R77). -/
def playCycles : List Cycle → List LineEvent → List LineEvent × List Level
  | [], h => (h, [])
  | c :: cs, h =>
    let risen := LineEvent.rise c.dir c.latch :: h
    if c.sampled then
      let v := match c.dir with
        | .output => c.latch
        | .input => Config.env risen
      let rest := playCycles cs (.fall c.dir c.latch :: .sample v :: risen)
      (rest.1, v :: rest.2)
    else playCycles cs (.fall c.dir c.latch :: risen)

/-- The levels a frame of operation `i` samples when it is issued in state `s`: eight for DIN, none for the others. -/
def frameSamples (i : Instr) (s : State) : List Level := (playCycles (cyclesOf i s.dout) s.hist).2

/-- The state after END of operation `i` issued in the idle state `s` (R82 to R85). What the host presented meanwhile is
not in it: `inputs` stays that of `s`. -/
def frameEnd (i : Instr) (s : State) : State :=
  let line := (playCycles (cyclesOf i s.dout) s.hist).1
  let byte := byteOfBits (frameSamples i s)
  match i with
  | .ctrl b =>
    { s with busy := false, opl := .ctrl, sr := b, upc := 37, cnt := 12, clk := low, dout := low, dir := .output,
             hist := line }
  | .null w =>
    { s with busy := false, opl := .null, sr := w, upc := 26, cnt := 12, clk := low, dir := .input, hist := line }
  | .dout b =>
    { s with busy := false, opl := .dout, sr := b, upc := 37, cnt := 12, clk := low, dout := low, dir := .output,
             hist := line }
  | .din _ =>
    { s with busy := false, opl := .din, sr := byte, upc := 36, cnt := 12, clk := low, dout := high, dir := .input,
             rxd := byte, hist := line }

end Sys2Proof.Machine
end

