-- ==== Sys2Proof/Safety.lean ====
section
/-! DEFINITION. Runs, what the host may present in one, and the invariant of the reachable states, in the terms the
statements use. -/

namespace Sys2Proof.Machine

/-- `n` steps of the machine, stopping at a fault or a refusal. -/
def run : Nat → State → Host.Outcome State Fault Refusal
  | 0, s => .next s
  | n + 1, s =>
    match step s with
    | .next t => run n t
    | .fault f => .fault f
    | .refused r => .refused r

/-- The outcome is a next state: no fault and no refusal. -/
def Proceeds (o : Host.Outcome State Fault Refusal) : Prop := ∃ t, o = .next t

/-- The host does not assert `rst` in the next `n` steps; it may assert `start`. -/
abbrev NoReset (n : Nat) (s : State) : Prop := ∀ p ∈ s.inputs.take n, p.rst = false

/-- How many micro-operations an operation takes from START to END (R81): 37, 26, 37 or 36. -/
def frameSteps (i : Instr) : Nat := (mu i.opSel).length

/-- Operation `i`, issued in `s`, is run to its END, and the state is then `u`. -/
def Transacts (i : Instr) (s u : State) : Prop :=
  ∃ t, exec i s = .next t ∧ run (frameSteps i) t = .next u

/-- The command port while the host issues `i`. -/
def startPort (i : Instr) : PortIn := { rst := false, start := true, op := i.opSel.code, wdata := i.wdata }

/-- One line of a host's list of actions (R62): an operation, or `RESET`. -/
inductive HostAct where
  | issue (i : Instr)
  | reset
  deriving DecidableEq, Repr

/-- The command port while the host asserts `rst`. -/
def resetPort : PortIn := { PortIn.quiet with rst := true }

/-- What a blocking host presents for a list of actions: each START, then nothing until that operation's BUSY has fallen,
and each `rst` for one step (R62). -/
def hostScript : List HostAct → List PortIn
  | [] => []
  | .issue i :: as => startPort i :: (List.replicate (frameSteps i) PortIn.quiet ++ hostScript as)
  | .reset :: as => resetPort :: hostScript as

/-- The state after one action of a blocking host, from an idle state. -/
def afterAct (s : State) : HostAct → State
  | .issue i => frameEnd i s
  | .reset => s.takeReset

/-- A run is over: BUSY = 0 and the host has nothing left to present. For a list of operations this is R8's end of a run.
R8 says nothing of a list that also holds resets (`RESET` is no operation, R62): that the run is not over while an `rst` is
still to be presented is the model's choice (DESIGN CHOICE, log 16). -/
def State.runOver (s : State) : Bool := !s.busy && s.inputs.all fun p => !p.start && !p.rst

/-- The target presents byte `v` to the DIN issued in `s`: `env` answers bit `i` of it at the sample of cycle `4 + i`
(R62's `[env: v]`). A hypothesis on `env`, not a fact of the codec. -/
def EnvPresents (w v : Byte) (s : State) : Prop := frameSamples (.din w) s = bitsOfByte v

/-- The clock level after a stretch of micro-operations that began with the clock low (R16). -/
def clkAfter (p : List MicroOp) : Level :=
  p.foldl (fun c u => match u with | .cr => high | .cf => low | _ => c) low

/-- The cycles completed in a stretch of micro-operations (R15). -/
def cyclesAfter (p : List MicroOp) : Nat := p.countP (· == .cf)

/-- The direction a stretch of micro-operations has set, if it has set one (R18). -/
def dirAfter (p : List MicroOp) : Option Dir :=
  p.foldl (fun d u => match u with | .diro => some .output | .diri => some .input | _ => d) none

/-- The latch level a stretch of micro-operations has set, if it has set one, with `sr` being sent (R17). -/
def doutAfter (sr : Byte) (p : List MicroOp) : Option Level :=
  p.foldl (fun l u => match u with | .dh => some high | .dl => some low | .db i => some (bitOf sr i) | _ => l) none

/-- The micro-operations of the running frame already performed. -/
def State.performed (s : State) : List MicroOp := (mu s.opl).take s.upc.toNat

/-- The states of a running frame: `UPC` inside the micro-program (R79), and the clock, the cycle count, the direction and
the latch where the micro-operations performed so far have put them. -/
def State.MidFrame (s : State) : Prop :=
  s.upc.toNat < (mu s.opl).length ∧ s.clk = clkAfter s.performed ∧ s.cnt.toNat = cyclesAfter s.performed ∧
    (∀ d, dirAfter s.performed = some d → s.dir = d) ∧ (∀ v, doutAfter s.sr s.performed = some v → s.dout = v)

/-- The states between frames: the clock low, and UPC and CNT as reset or the last END left them (R14, R15, R88). -/
def State.BetweenFrames (s : State) : Prop :=
  s.clk = low ∧ ((s.upc = 0 ∧ s.cnt = 0) ∨ (s.upc.toNat = (mu s.opl).length ∧ s.cnt = 12))

/-- The invariant: the states a run from reset can be in, as far as the codec's own elements go. -/
def State.Inv (s : State) : Prop := if s.busy then s.MidFrame else s.BetweenFrames

end Sys2Proof.Machine
end

