-- ==== Sys2Proof/WellFormed.lean ====
section
/-! DEFINITION. What is well-formed: instructions (all of them, R60), and the micro-programs the machine runs, whose
form the rules R40, R73, R77, R78, R79, R86, R88 and R114 fix. -/

namespace Sys2Proof

open Sys2Proof.Machine (MicroOp)

/-- Every instruction is well-formed: no command word is illegal or reserved and every `wdata` is legal with every
operation (R60). The operand's range is its type's. -/
def Instr.wellFormed : Instr → Bool
  | .ctrl _ => true
  | .null _ => true
  | .dout _ => true
  | .din _ => true

/-- END is the last entry and stands nowhere else (R79, R86). -/
def endsOnce : List MicroOp → Bool
  | [] => false
  | [u] => u == .endFrame
  | u :: us => u != .endFrame && endsOnce us

/-- The clock makes whole pulses and nothing but a sample stands between a rise and its fall: `clk` is the level so far
and `n` the cycles completed; at the end the clock is low and the frame had its cycles (R40, R78, R114). -/
def wholePulses : Level → Nat → List MicroOp → Bool
  | clk, n, [] => !clk && n == Config.frameCycles
  | false, n, .cr :: us => wholePulses high n us
  | false, _, .cf :: _ => false
  | false, _, .sm _ :: _ => false
  | false, n, _ :: us => wholePulses low n us
  | true, n, .cf :: us => wholePulses low (n + 1) us
  | true, n, .sm _ :: us => wholePulses high n us
  | true, _, _ :: _ => false

/-- Sample `i` stands in cycle `4 + i`, after that cycle's rise, and the line is an input there: `d` is the direction so
far (none before it is set) and `n` the rises so far (R77). -/
def samplesInPlace : Option Dir → Nat → List MicroOp → Bool
  | _, _, [] => true
  | d, n, .cr :: us => samplesInPlace d (n + 1) us
  | _, n, .diro :: us => samplesInPlace (some .output) n us
  | _, n, .diri :: us => samplesInPlace (some .input) n us
  | d, n, .sm i :: us => d == some .input && n == 4 + i.val && samplesInPlace d n us
  | d, n, _ :: us => samplesInPlace d n us

/-- The direction is set before anything else: by `DIRI`, or by `DIRO` directly after a `DH` (R73, R88). -/
def setsDirectionFirst : List MicroOp → Bool
  | .diri :: _ => true
  | .dh :: .diro :: _ => true
  | _ => false

/-- The form of a micro-program: the four checks together. -/
def microProgramWellFormed (p : List MicroOp) : Bool :=
  endsOnce p && wholePulses low 0 p && samplesInPlace none 0 p && setsDirectionFirst p

end Sys2Proof
end

