-- ==== Sys2Proof/Certificates/Slice0/Obligations.lean ====
section
/-! DEFINITION. The statements for the provers, each from the spec's rules. No statement rests on what a free value
(`Config.env`, `Config.rxdReset`) is, and none on the values `State.reset` gives the model's own fields. -/

open Sys2Proof Sys2Proof.Machine

/-! ### Encoding and decoding -/

/-- Decoding the command word of an instruction gives the instruction back, with every operand bit (R50, R51). -/
def Obligations.DecodeInvertsEncode : Prop :=
  ∀ i : Instr, i.wellFormed = true →
    decode (encode i).toNat = .ok i ∧ decodeTableWord 16 (encode i).toNat = some i

/-- Every 10-bit word is the command word of exactly one instruction (R50, R60). That a number of 1024 or more is
rejected, by the name `notACommandWord`, is the model's own choice and no rule of the spec (log 15). -/
def Obligations.EveryCommandWordIsOneInstruction : Prop :=
  (∀ w : CommandWord, encode (decodeWord w) = w ∧ ∀ i : Instr, encode i = w → i = decodeWord w) ∧
  (∀ n : Nat, n < 1024 → decode n = .ok (decodeWord (BitVec.ofNat 10 n))) ∧
  (∀ n : Nat, 1024 ≤ n → decode n = .error .notACommandWord)

/-- Words written out from R51's table and the vectors V41, V45, V47, V50 decode to their instructions. -/
def Obligations.WrittenWordsDecode : Prop :=
  decodeWord 0b0001000001#10 = .ctrl 0x41 ∧ decodeWord 0b0101110111#10 = .null 0x77 ∧
  decodeWord 0b1010100101#10 = .dout 0xA5 ∧ decodeWord 0b1100010010#10 = .din 0x12

/-- The `op` field selects the operation by its match and mask; all four values are used; bit 1 of it is the level of
header cycle 2 in the frames that have a header, and bit 0 says whether the operation ends with the line as input (R51). -/
def Obligations.OpFieldSelectsOperation : Prop :=
  (∀ w : CommandWord,
    (w &&& 0x300#10 = 0x000#10 ↔ decodeWord w = .ctrl w.wdata) ∧
    (w &&& 0x300#10 = 0x100#10 ↔ decodeWord w = .null w.wdata) ∧
    (w &&& 0x300#10 = 0x200#10 ↔ decodeWord w = .dout w.wdata) ∧
    (w &&& 0x300#10 = 0x300#10 ↔ decodeWord w = .din w.wdata)) ∧
  (∀ (w : CommandWord) (s : State), s.busy = false → NoReset (frameSteps (decodeWord w)) s →
    ∃ u es, Transacts (decodeWord w) s u ∧ u.hist = es.reverse ++ s.hist ∧
      ((decodeWord w).opSel ≠ .null → (wireOf es)[1]? = some (.driven (w.getLsbD 9))) ∧
      (u.dir = .input ↔ w.getLsbD 8 = true))

/-! ### Reset, and whose turn a step is -/

/-- What reset leaves in the elements R24 gives a value. RXD is unspecified there, and this states nothing about it. -/
def Obligations.ResetValues : Prop :=
  State.reset.busy = false ∧ State.reset.opl = .null ∧ State.reset.sr = 0x00 ∧ State.reset.upc = 0 ∧
  State.reset.cnt = 0 ∧ State.reset.clk = low ∧ State.reset.dout = low ∧ State.reset.dir = .input

/-- Reset can be taken in any state: it puts every element of R24 at its value, whatever the codec was doing and whatever
else the host asserts; the clock line is low, the data line not driven, and a START is accepted next (R110). -/
def Obligations.ResetFromAnyState : Prop :=
  ∀ s : State, s.port.rst = true → ∃ t, step s = .next t ∧
    t.busy = false ∧ t.opl = .null ∧ t.sr = 0x00 ∧ t.upc = 0 ∧ t.cnt = 0 ∧ t.clk = low ∧ t.dout = low ∧
    t.dir = .input ∧ t.portSclk = low ∧ t.portSdatOe = false ∧
    ∀ i : Instr, ∃ v, exec i t = .next v ∧ v.busy = true ∧ v.opl = i.opSel

/-- A reset in mid-frame cuts the frame short (R111, an inference of the spec's own). First clause, from every state of a
running frame: every element is at its reset value, the data line is released and the clock line low; no END has run, since
RXD is the free reset value (the model's choice, log 1) and what SR and RXD held reaches nothing of the next state; the line
gets one more event, a reset that finds the clock high exactly when a fall or a sample was next. Second clause, for a frame
issued in an idle state and reset after any number of its steps: the clock edges the line has seen since START are CNT whole
cycles, and one rising edge more if the clock was high. The reset event in the history is the model's addition to R38's list
(DEDUCED, log 3 and log 4), and so is the sample event that the history of a DIN holds (log 3). -/
def Obligations.ResetCutsFrameShort : Prop :=
  (∀ s : State, s.Inv → s.busy = true → s.port.rst = true →
    ∃ t, step s = .next t ∧ t.Inv ∧ t.busy = false ∧ t.opl = .null ∧ t.sr = 0x00 ∧ t.upc = 0 ∧ t.cnt = 0 ∧
      t.portSclk = low ∧ t.dout = low ∧ t.dir = .input ∧ t.portSdatOe = false ∧
      t.rxd = Config.rxdReset (.reset s.clk :: s.hist) ∧ t.hist = .reset s.clk :: s.hist ∧
      (∀ b r : Byte, step { s with sr := b, rxd := r } = .next t) ∧
      (s.clk = high ↔ ∃ u, s.nextOp = some u ∧ (u = .cf ∨ ∃ i, u = .sm i))) ∧
  (∀ (i : Instr) (s : State) (k : Nat) (p : PortIn), s.Inv → s.busy = false → k < frameSteps i → NoReset k s →
    s.inputs[k]? = some p → p.rst = true →
    ∃ t u v es, exec i s = .next t ∧ run k t = .next u ∧ step u = .next v ∧
      u.busy = true ∧ u.upc.toNat = k ∧ u.hist = es.reverse ++ s.hist ∧
      edgesOf es = (List.replicate u.cnt.toNat [high, low]).flatten ++ (if u.clk = high then [high] else []) ∧
      v.busy = false ∧ v.cnt = 0 ∧ v.portSclk = low ∧ v.portSdatOe = false ∧ v.hist = .reset u.clk :: u.hist ∧
      v.rxd = Config.rxdReset v.hist)

/-- Simultaneous requests: reset overrides everything; then the codec's step, with `start` ignored; then `start`, accepted
only when idle (R102). That the codec takes its step in every machine step without reset is the model's choice (log 9), and
so is the last clause: with none of the three requests the step is a wait in which no element changes (log 10). -/
def Obligations.PriorityOfRequests : Prop :=
  (∀ s : State, s.port.rst = true → ∃ t, step s = .next t ∧ t.busy = false ∧ t.opl = .null ∧ t.sr = 0x00 ∧ t.upc = 0 ∧
    t.cnt = 0 ∧ t.clk = low ∧ t.dout = low ∧ t.dir = .input) ∧
  (∀ s : State, s.port.rst = false → s.busy = true → step s = codecStep s.passInputs) ∧
  (∀ s : State, s.port.rst = false → s.busy = false → s.port.start = true →
    step s = exec (decodeWord (s.port.op ++ s.port.wdata)) s.passInputs) ∧
  (∀ s : State, s.port.rst = false → s.busy = false → s.port.start = false → step s = .next s.passInputs)

/-- A step runs the decoded instruction: when the port presents `start` to an idle codec that is not reset, the step is the
instruction's own meaning, on the state whose inputs of this step have passed (R80, R102; that inputs pass is the model's
choice, log 2). The second clause says the same of a word placed by `withFetchWord`, which is the model's own way to set up
a START and no rule of the spec: it makes the codec idle, replaces what the port presents next and drops the bits above
`nbits` (DESIGN CHOICE, log 7). -/
def Obligations.StepRunsDecodedInstruction : Prop :=
  (∀ (s : State) (i : Instr), s.port.rst = false → s.busy = false → s.port.start = true →
    decode (s.port.op ++ s.port.wdata).toNat = .ok i → step s = exec i s.passInputs) ∧
  (∀ (s : State) (nbits w : Nat) (i : Instr), decodeTableWord nbits w = some i →
    step (s.withFetchWord nbits w) = exec i { s with busy := false, inputs := s.inputs.tail })

/-! ### START and the step rule -/

/-- START in an idle state sets BUSY, OPL, SR, UPC and CNT and changes nothing else. With BUSY = 1 it is ignored: the
instruction's meaning changes no state, and at the machine's step the running frame goes on as if it had not been
presented, with nothing of it remembered (R80). -/
def Obligations.StartLatchesTheOperation : Prop :=
  (∀ (i : Instr) (s : State), s.busy = false → exec i s =
    .next { s with busy := true, opl := i.opSel, sr := i.wdata, upc := 0, cnt := 0 }) ∧
  (∀ (i : Instr) (s : State), s.busy = true → exec i s = .next s) ∧
  (∀ (i : Instr) (s : State) (ps : List PortIn), s.busy = true →
    step { s with inputs := startPort i :: ps } = step { s with inputs := PortIn.quiet :: ps })

/-- The codec has a step if and only if BUSY = 1; the step performs mu(OPL)[UPC] and adds 1 to UPC; with the invariant it
never points past the micro-program (R79; its last clause is an inference of the spec's own). -/
def Obligations.CodecStepRule : Prop :=
  (∀ s : State, s.port.rst = false → (nextTurn s.port s.busy = .codec ↔ s.busy = true)) ∧
  (∀ (s : State) (u : MicroOp), s.port.rst = false → s.busy = true → (mu s.opl)[s.upc.toNat]? = some u →
    ∃ t, step s = .next t ∧ t = { perform u s.passInputs with upc := s.upc + 1 }) ∧
  (∀ s : State, s.Inv → s.busy = true → ∃ u, (mu s.opl)[s.upc.toNat]? = some u)

/-- OPL and SR are private copies: what the host presents on `start`, `op` and `wdata` while a frame runs has no effect on
the step (R42, R12). -/
def Obligations.PortsIgnoredWhileBusy : Prop :=
  ∀ (s : State) (p q : PortIn) (ps : List PortIn), s.busy = true → p.rst = q.rst →
    step { s with inputs := p :: ps } = step { s with inputs := q :: ps }

/-! ### The line primitives, at the step that performs them -/

/-- `DH`: DOUT becomes 1 and nothing else changes but UPC; the line goes high if driven and is unaffected if not; it is
performed only with the clock low, and is the first micro-operation of CTRL, DOUT and DIN (R70). -/
def Obligations.SetDataHigh : Prop :=
  (∀ s : State, s.port.rst = false → s.busy = true → s.nextOp = some .dh →
    step s = .next { s.passInputs with dout := high, upc := s.upc + 1 } ∧
    ({ s.passInputs with dout := high, upc := s.upc + 1 } : State).wire = (if s.dir = .output then high else s.wire)) ∧
  (∀ s : State, s.Inv → s.busy = true → s.nextOp = some .dh → s.clk = low) ∧
  (mu .ctrl)[0]? = some .dh ∧ (mu .dout)[0]? = some .dh ∧ (mu .din)[0]? = some .dh

/-- `DL`: DOUT becomes 0 and nothing else changes but UPC; the line goes low if driven and is unaffected if not; it is
performed only with the clock low; in CTRL it follows cycle 1 and takes the driven line from high to low (R71). -/
def Obligations.SetDataLow : Prop :=
  (∀ s : State, s.port.rst = false → s.busy = true → s.nextOp = some .dl →
    step s = .next { s.passInputs with dout := low, upc := s.upc + 1 } ∧
    ({ s.passInputs with dout := low, upc := s.upc + 1 } : State).wire = (if s.dir = .output then low else s.wire)) ∧
  (∀ s : State, s.Inv → s.busy = true → s.nextOp = some .dl → s.clk = low) ∧
  (∀ s : State, s.Inv → s.busy = true → s.opl = .ctrl → s.upc = 4 →
    s.nextOp = some .dl ∧ s.cnt = 1 ∧ s.dir = .output ∧ s.wire = high)

/-- `DB(i)`: DOUT becomes bit i of SR and nothing else changes but UPC; it is used only in CTRL and DOUT, with the line
driven and the clock low, for i = 0 to 7 in that order (R72). -/
def Obligations.SetDataToBit : Prop :=
  (∀ (s : State) (i : Fin 8), s.port.rst = false → s.busy = true → s.nextOp = some (.db i) →
    step s = .next { s.passInputs with dout := s.sr.getLsbD i.val, upc := s.upc + 1 }) ∧
  (∀ (s : State) (i : Fin 8), s.Inv → s.busy = true → s.nextOp = some (.db i) →
    (s.opl = .ctrl ∨ s.opl = .dout) ∧ s.dir = .output ∧ s.clk = low) ∧
  (∀ op : OpSel, (mu op).filterMap (fun u => match u with | .db i => some i | _ => none) =
    if op = .ctrl ∨ op = .dout then [0, 1, 2, 3, 4, 5, 6, 7] else [])

/-- `DIRO`: DIR becomes out and nothing else changes but UPC, and from then on the line shows the latch; wherever it occurs
it is the second micro-operation, after a `DH`, with the latch high and the clock low (R73). -/
def Obligations.SetDirectionOut : Prop :=
  (∀ s : State, s.port.rst = false → s.busy = true → s.nextOp = some .diro →
    step s = .next { s.passInputs with dir := .output, upc := s.upc + 1 } ∧
    ({ s.passInputs with dir := .output, upc := s.upc + 1 } : State).wire = s.dout) ∧
  (∀ (op : OpSel) (n : Nat), (mu op)[n]? = some .diro → n = 1 ∧ (mu op)[0]? = some .dh) ∧
  (∀ s : State, s.Inv → s.busy = true → s.nextOp = some .diro → s.dout = high ∧ s.clk = low)

/-- `DIRI`: DIR becomes in and nothing else changes but UPC: the latch keeps its value and stops reaching the line. It is
the first micro-operation of NULL, and in DIN stands directly after the fall of cycle 2 and directly before the rise of
cycle 3; nowhere else; the clock is low (R74). -/
def Obligations.SetDirectionIn : Prop :=
  (∀ s : State, s.port.rst = false → s.busy = true → s.nextOp = some .diri →
    step s = .next { s.passInputs with dir := .input, upc := s.upc + 1 } ∧
    ({ s.passInputs with dir := .input, upc := s.upc + 1 } : State).wire = Config.env s.hist) ∧
  (∀ (op : OpSel) (n : Nat), (mu op)[n]? = some .diri ↔ (op = .null ∧ n = 0) ∨ (op = .din ∧ n = 6)) ∧
  (mu .din)[5]? = some .cf ∧ (mu .din)[7]? = some .cr ∧
  (∀ s : State, s.Inv → s.busy = true → s.nextOp = some .diri →
    s.clk = low ∧ (s.opl = .din → s.cnt = 2 ∧ s.dout = high ∧ s.dir = .output))

/-- `CR` and `CF`: the rise writes CLK only, the fall CLK and CNT, besides UPC and the line history; a rise always finds the
clock low, a fall finds it high and CNT at most 11 (R75, R76; the last clause is an inference of the spec's own). -/
def Obligations.ClockEdges : Prop :=
  (∀ s : State, s.port.rst = false → s.busy = true → s.nextOp = some .cr →
    step s = .next { s.passInputs with clk := high, upc := s.upc + 1, hist := .rise s.dir s.dout :: s.hist }) ∧
  (∀ s : State, s.port.rst = false → s.busy = true → s.nextOp = some .cf →
    step s = .next { s.passInputs with
      clk := low, cnt := s.cnt + 1, upc := s.upc + 1, hist := .fall s.dir s.dout :: s.hist }) ∧
  (∀ s : State, s.Inv → s.busy = true → s.nextOp = some .cr → s.clk = low) ∧
  (∀ s : State, s.Inv → s.busy = true → s.nextOp = some .cf → s.clk = high ∧ s.cnt.toNat ≤ 11)

/-- `SM(i)`: bit i of SR becomes the level of the data line, the other seven bits and every other element but UPC keep their
values; it is used only in DIN, in cycle 4 + i, after that cycle's rise and before its fall, with the line an input, so
that what it stores is what `env` answers (R77, R38). That the line history also records the sample, with the level read, is
the model's choice and no rule of the spec: R38 lists clock edges (DEDUCED, log 3). -/
def Obligations.SampleDataLine : Prop :=
  (∀ (s : State) (i : Fin 8), s.port.rst = false → s.busy = true → s.nextOp = some (.sm i) →
    ∃ b : Byte, step s = .next { s.passInputs with sr := b, upc := s.upc + 1, hist := .sample s.wire :: s.hist } ∧
      ∀ j : Fin 8, b.getLsbD j.val = if j = i then s.wire else s.sr.getLsbD j.val) ∧
  (∀ (s : State) (i : Fin 8), s.Inv → s.busy = true → s.nextOp = some (.sm i) →
    s.opl = .din ∧ s.cnt.toNat + 1 = 4 + i.val ∧ s.clk = high ∧ s.dir = .input ∧ s.wire = Config.env s.hist) ∧
  (∀ (op : OpSel) (n : Nat) (i : Fin 8), (mu op)[n]? = some (.sm i) →
    (mu op)[n - 1]? = some .cr ∧ (mu op)[n + 1]? = some .cf)

/-- `END`: BUSY becomes 0, RXD becomes SR for DIN and keeps its value otherwise, and nothing else changes but UPC; it is the
last entry of every micro-program and occurs once, it finds CNT = 12 and the clock low, and after it the codec has no step
until the next START (R86). -/
def Obligations.EndOfFrame : Prop :=
  (∀ s : State, s.port.rst = false → s.busy = true → s.nextOp = some .endFrame →
    step s = .next { s.passInputs with
      busy := false, rxd := (if s.opl = .din then s.sr else s.rxd), upc := s.upc + 1 }) ∧
  (∀ (op : OpSel) (n : Nat), (mu op)[n]? = some .endFrame ↔ n + 1 = (mu op).length) ∧
  (∀ s : State, s.Inv → s.busy = true → s.nextOp = some .endFrame → s.cnt = 12 ∧ s.clk = low) ∧
  (∀ s : State, s.busy = false → nextTurn s.port s.busy ≠ .codec)

/-! ### Invariants -/

/-- The invariant holds at reset. -/
def Obligations.InvariantAtReset : Prop := State.reset.Inv

/-- Every step keeps the invariant, from every state that meets it: while a frame runs UPC is inside its micro-program and
CLK, CNT, DIR and DOUT are what the micro-operations performed so far have made them; between frames the clock is low. -/
def Obligations.EveryStepKeepsInvariant : Prop :=
  ∀ s t : State, s.Inv → step s = .next t → t.Inv

/-- The machine never stops: from every state that meets the invariant the step gives a next state, whatever the host
presents and whatever `env` answers (R100, R106). -/
def Obligations.NoStepStops : Prop :=
  ∀ s : State, s.Inv → Proceeds (step s)

/-- The data line's direction and latch never change in a step taken with the clock high, reset apart (R40). -/
def Obligations.LineStillWhileClockHigh : Prop :=
  ∀ s t : State, s.Inv → s.port.rst = false → s.clk = high → step s = .next t → t.dir = s.dir ∧ t.dout = s.dout

/-- Which micro-operations can change which element, END and START apart (R25): a codec step that is not reset changes CLK
only in CR and CF, CNT only in CF, DOUT only in DH, DL and DB, DIR only in DIRO and DIRI, SR only in SM, RXD only in the END
of DIN, BUSY only in END, and OPL never; a step of an idle codec changes none of CLK, DOUT, DIR, RXD and the history. -/
def Obligations.AccessRights : Prop :=
  (∀ (s t : State) (u : MicroOp), s.port.rst = false → s.busy = true → s.nextOp = some u → step s = .next t →
    t.opl = s.opl ∧ t.upc = s.upc + 1 ∧
    (t.clk ≠ s.clk → u = .cr ∨ u = .cf) ∧ (t.cnt ≠ s.cnt → u = .cf) ∧
    (t.dout ≠ s.dout → u = .dh ∨ u = .dl ∨ ∃ i, u = .db i) ∧ (t.dir ≠ s.dir → u = .diro ∨ u = .diri) ∧
    (t.sr ≠ s.sr → ∃ i, u = .sm i) ∧ (t.rxd ≠ s.rxd → u = .endFrame ∧ s.opl = .din) ∧
    (t.busy ≠ s.busy → u = .endFrame)) ∧
  (∀ s t : State, s.port.rst = false → s.busy = false → step s = .next t →
    t.clk = s.clk ∧ t.dout = s.dout ∧ t.dir = s.dir ∧ t.rxd = s.rxd ∧ t.hist = s.hist)

/-- RXD changes only when a DIN completes or at reset: in every other step, and so all through CTRL, NULL and DOUT and
before the END of a DIN, the host reads the same byte (R19). -/
def Obligations.ReceivedByteIsHeld : Prop :=
  ∀ s t : State, s.port.rst = false → step s = .next t →
    t.portRdata = (if s.busy = true ∧ s.opl = .din ∧ s.nextOp = some .endFrame then s.sr else s.portRdata)

/-! ### The micro-programs and whole frames -/

/-- The four micro-programs have the lengths and the form the rules give them (R81, R78, R114). -/
def Obligations.MicroProgramsWellFormed : Prop :=
  (∀ op : OpSel, microProgramWellFormed (mu op) = true) ∧
  (mu .ctrl).length = 37 ∧ (mu .null).length = 26 ∧ (mu .dout).length = 37 ∧ (mu .din).length = 36

/-- Every operation, issued in any idle state and run under any host behaviour but reset and any `env`, ends in exactly the
state its frame-level summary gives: the micro-programs (R81) and the frame tables (R53 to R56) with the frame-level effects
(R82 to R85) agree. The history that both add to holds the samples beside the edges, which is the model's choice (DEDUCED,
log 3), and the host's inputs pass one a step (DESIGN CHOICE, log 2). -/
def Obligations.MicroProgramsRefineFrames : Prop :=
  ∀ (i : Instr) (s : State), s.busy = false → NoReset (frameSteps i) s →
    Transacts i s { frameEnd i s with inputs := s.inputs.drop (frameSteps i) }

/-- `CTRL b` completes: issued in any idle state it is accepted, and 37 micro-operations later it has driven the whole frame
and left the state R83 gives; RXD is unchanged and the line was never sampled. -/
def Obligations.CtrlCompletes : Prop :=
  ∀ (b : Byte) (s : State), s.busy = false → NoReset 37 s →
    encode (.ctrl b) = 0b00#2 ++ b ∧
    ∃ t u es, exec (.ctrl b) s = .next t ∧ t.busy = true ∧ run 37 t = .next u ∧
      u = { s with busy := false, opl := .ctrl, sr := b, upc := 37, cnt := 12, clk := low, dout := low, dir := .output,
                   hist := es.reverse ++ s.hist, inputs := s.inputs.drop 37 } ∧
      samplesOf es = [] ∧
      wireOf es = [.driven high, .driven low, .driven low, .driven (b.getLsbD 0), .driven (b.getLsbD 1),
        .driven (b.getLsbD 2), .driven (b.getLsbD 3), .driven (b.getLsbD 4), .driven (b.getLsbD 5),
        .driven (b.getLsbD 6), .driven (b.getLsbD 7), .driven low]

/-- `NULL` completes: issued in any idle state it is accepted, and 26 micro-operations later it has made twelve undriven
cycles and left the state R82 gives; the latch and RXD are unchanged and the line was never sampled. -/
def Obligations.NullCompletes : Prop :=
  ∀ (w : Byte) (s : State), s.busy = false → NoReset 26 s →
    encode (.null w) = 0b01#2 ++ w ∧
    ∃ t u es, exec (.null w) s = .next t ∧ t.busy = true ∧ run 26 t = .next u ∧
      u = { s with busy := false, opl := .null, sr := w, upc := 26, cnt := 12, clk := low, dir := .input,
                   hist := es.reverse ++ s.hist, inputs := s.inputs.drop 26 } ∧
      samplesOf es = [] ∧
      wireOf es = [.undriven, .undriven, .undriven, .undriven, .undriven, .undriven, .undriven, .undriven, .undriven,
        .undriven, .undriven, .undriven]

/-- `DOUT b` completes: issued in any idle state it is accepted, and 37 micro-operations later it has driven the whole frame
and left the state R84 gives; RXD is unchanged and the line was never sampled. -/
def Obligations.DoutCompletes : Prop :=
  ∀ (b : Byte) (s : State), s.busy = false → NoReset 37 s →
    encode (.dout b) = 0b10#2 ++ b ∧
    ∃ t u es, exec (.dout b) s = .next t ∧ t.busy = true ∧ run 37 t = .next u ∧
      u = { s with busy := false, opl := .dout, sr := b, upc := 37, cnt := 12, clk := low, dout := low, dir := .output,
                   hist := es.reverse ++ s.hist, inputs := s.inputs.drop 37 } ∧
      samplesOf es = [] ∧
      wireOf es = [.driven high, .driven high, .driven low, .driven (b.getLsbD 0), .driven (b.getLsbD 1),
        .driven (b.getLsbD 2), .driven (b.getLsbD 3), .driven (b.getLsbD 4), .driven (b.getLsbD 5),
        .driven (b.getLsbD 6), .driven (b.getLsbD 7), .driven low]

/-- `DIN` completes: issued in any idle state it is accepted, and 36 micro-operations later it has driven cycles 1 and 2
high, sampled cycles 4 to 11 and left the state R85 gives; bit i of RXD is what was sampled in cycle 4 + i, and `wdata`
never reaches RXD. -/
def Obligations.DinCompletes : Prop :=
  ∀ (w : Byte) (s : State), s.busy = false → NoReset 36 s →
    encode (.din w) = 0b11#2 ++ w ∧
    ∃ (t u : State) (es : List LineEvent) (v : Byte), exec (.din w) s = .next t ∧ t.busy = true ∧ run 36 t = .next u ∧
      u = { s with busy := false, opl := .din, sr := v, upc := 36, cnt := 12, clk := low, dout := high, dir := .input,
                   rxd := v, hist := es.reverse ++ s.hist, inputs := s.inputs.drop 36 } ∧
      samplesOf es = [v.getLsbD 0, v.getLsbD 1, v.getLsbD 2, v.getLsbD 3, v.getLsbD 4, v.getLsbD 5, v.getLsbD 6,
        v.getLsbD 7] ∧
      wireOf es = [.driven high, .driven high, .undriven, .sampled (v.getLsbD 0), .sampled (v.getLsbD 1),
        .sampled (v.getLsbD 2), .sampled (v.getLsbD 3), .sampled (v.getLsbD 4), .sampled (v.getLsbD 5),
        .sampled (v.getLsbD 6), .sampled (v.getLsbD 7), .undriven]

/-- What a DIN samples is what `env` answers in that cycle: the sample of bit i is `env` of the history up to and including
the rise of cycle 4 + i (R38, R85). The form of that history is the model's choice: beside R38's clock edges it holds the
samples of the frame's earlier cycles, and any resets before the frame (DEDUCED, log 3). -/
def Obligations.DinSamplesComeFromEnv : Prop :=
  ∀ (w : Byte) (s : State), s.busy = false → NoReset 36 s →
    ∃ u es, Transacts (.din w) s u ∧ u.hist = es.reverse ++ s.hist ∧
      ∀ i : Fin 8, ∃ before after, es = before ++ .sample (u.rxd.getLsbD i.val) :: after ∧
        edgesOf before = (List.replicate (3 + i.val) [high, low]).flatten ++ [high] ∧
        u.rxd.getLsbD i.val = Config.env (before.reverse ++ s.hist)

/-- In every frame the data bit in cycle 4 + i is bit i of the byte, sent or received: serialisation and deserialisation are
both least significant bit first, nothing inverted or added (R57, R58). -/
def Obligations.BitOrderOnTheWire : Prop :=
  (∀ (b : Byte) (s : State), s.busy = false → NoReset 37 s → ∀ i : Instr, (i = .ctrl b ∨ i = .dout b) →
    ∃ u es, Transacts i s u ∧ u.hist = es.reverse ++ s.hist ∧
      ∀ k : Fin 8, (wireOf es)[3 + k.val]? = some (.driven (b.getLsbD k.val))) ∧
  (∀ (w : Byte) (s : State), s.busy = false → NoReset 36 s →
    ∃ (u : State) (es : List LineEvent) (v : Fin 8 → Level), Transacts (.din w) s u ∧ u.hist = es.reverse ++ s.hist ∧
      (∀ k : Fin 8, (wireOf es)[3 + k.val]? = some (.sampled (v k))) ∧
      u.rxd.toNat = ∑ k : Fin 8, (v k).toNat * 2 ^ k.val)

/-- Every operation emits exactly twelve whole cycles, rise and fall strictly alternating from a rise, and no step outside a
frame emits a clock edge (R114). -/
def Obligations.WholeFramesOnly : Prop :=
  (∀ (i : Instr) (s : State), s.busy = false → NoReset (frameSteps i) s →
    ∃ u es, Transacts i s u ∧ u.hist = es.reverse ++ s.hist ∧
      edgesOf es = (List.replicate 12 [high, low]).flatten ∧ (wireOf es).length = 12 ∧ u.cnt = 12) ∧
  (∀ s t : State, s.Inv → s.busy = false → step s = .next t → t.clk = s.clk ∧ edgesOf t.hist = edgesOf s.hist)

/-- The direction switch point: in a running DIN the one step that turns the line from output to input lies between the fall
of cycle 2 and the rise of cycle 3, and the codec samples bit i in cycle 4 + i, exactly in cycles 4 to 11 (R115). -/
def Obligations.DirectionSwitchPoint : Prop :=
  (∀ s t : State, s.Inv → s.busy = true → s.opl = .din → s.port.rst = false → step s = .next t →
    s.dir = .output → t.dir = .input →
    s.clk = low ∧ s.cnt = 2 ∧ (mu .din)[s.upc.toNat - 1]? = some .cf ∧ (mu .din)[s.upc.toNat + 1]? = some .cr) ∧
  (∀ (w : Byte) (s : State), s.busy = false → NoReset 36 s → ∃ u es, Transacts (.din w) s u ∧
    u.hist = es.reverse ++ s.hist ∧
    lineAtEdges es = List.replicate 4 (Dir.output, high) ++ List.replicate 20 (Dir.input, high)) ∧
  (∀ (s : State) (i : Fin 8), s.Inv → s.busy = true → s.nextOp = some (.sm i) →
    s.clk = high ∧ s.cnt.toNat + 1 = 4 + i.val) ∧
  (mu .din).filterMap (fun u => match u with | .sm i => some i | _ => none) = [0, 1, 2, 3, 4, 5, 6, 7]

/-- Line mode after the 2nd start cycle: directly after micro-operation 6 of a data frame CNT is 2 and the next
micro-operation is the rise of cycle 3; the line is an input in DIN and an output in DOUT, whatever it was before (R90, an
inference of the spec's own). -/
def Obligations.LineModeAfterSecondCycle : Prop :=
  ∀ (b : Byte) (s : State), s.busy = false → NoReset 7 s →
    (∃ t u, exec (.din b) s = .next t ∧ run 7 t = .next u ∧ u.cnt = 2 ∧ u.clk = low ∧
      u.nextOp = some .cr ∧ u.dir = .input) ∧
    (∃ t u, exec (.dout b) s = .next t ∧ run 7 t = .next u ∧ u.cnt = 2 ∧ u.clk = low ∧
      u.nextOp = some .cr ∧ u.dir = .output)

/-- Every accepted operation is busy for exactly its micro-program's number of steps, whatever the host presents (but reset)
and whatever `env` answers (R106, an inference of the spec's own, and R35). That each of these is one step of the machine,
because a busy codec steps in every machine step without reset, is the model's choice (log 9). -/
def Obligations.BusyForExactlyTheFrame : Prop :=
  ∀ (i : Instr) (s : State), s.busy = false → NoReset (frameSteps i) s →
    ∃ t, exec i s = .next t ∧ ∀ k : Nat, k ≤ frameSteps i →
      ∃ u, run k t = .next u ∧ (u.portBusy = true ↔ k < frameSteps i) ∧ u.upc.toNat = k

/-- The line between frames: after CTRL or DOUT the codec holds it driven low, after DIN it is not driven and the latch is
high, after NULL it is not driven and the latch is unchanged; the clock is low (R88, an inference of the spec's own). The
second clause, that an idle step with nothing presented is a wait that answers a next state in which only the host's inputs
have passed, is the model's own choice (DESIGN CHOICE, log 10). -/
def Obligations.LineBetweenFrames : Prop :=
  (∀ (i : Instr) (s : State), s.busy = false → NoReset (frameSteps i) s → ∃ u, Transacts i s u ∧ u.clk = low ∧
    (match i with
      | .ctrl _ => u.dir = .output ∧ u.dout = low ∧ u.wire = low
      | .null _ => u.dir = .input ∧ u.dout = s.dout
      | .dout _ => u.dir = .output ∧ u.dout = low ∧ u.wire = low
      | .din _ => u.dir = .input ∧ u.dout = high)) ∧
  (∀ s : State, s.port.rst = false → s.busy = false → s.port.start = false →
    ∃ t, step s = .next t ∧ t = { s with inputs := s.inputs.tail })

/-- The reference decoder: no frame if cycle 1 is not high; else the type by cycle 2 and the byte of cycles 4 to 11, least
significant bit first, with cycles 3 and 12 not examined (R64). -/
def Obligations.FrameDecodeReadsTypeAndByte : Prop :=
  ∀ (l1 l2 l3 l12 : Level) (b : Byte),
    frameDecode ([l1, l2, l3] ++ [b.getLsbD 0, b.getLsbD 1, b.getLsbD 2, b.getLsbD 3, b.getLsbD 4, b.getLsbD 5,
      b.getLsbD 6, b.getLsbD 7] ++ [l12]) =
    if l1 = high then .frame (if l2 = low then .control else .data) b else .noFrame

/-- Round trip: the twelve levels the codec drives in CTRL b decode to (Control, b), and in DOUT b to (Data, b), for every
byte b, from every idle state (R89). -/
def Obligations.RoundTrip : Prop :=
  ∀ (b : Byte) (s : State), s.busy = false → NoReset 37 s →
    (∃ u es ls, Transacts (.ctrl b) s u ∧ u.hist = es.reverse ++ s.hist ∧ drivenLevels (wireOf es) = some ls ∧
      ls.length = 12 ∧ frameDecode ls = .frame .control b) ∧
    (∃ u es ls, Transacts (.dout b) s u ∧ u.hist = es.reverse ++ s.hist ∧ drivenLevels (wireOf es) = some ls ∧
      ls.length = 12 ∧ frameDecode ls = .frame .data b)

/-- Reception: if the target presents byte v to a DIN, RXD is v after END, whatever `wdata` was (R89). -/
def Obligations.ReceivedByteIsPresentedByte : Prop :=
  ∀ (w v : Byte) (s : State), s.busy = false → NoReset 36 s → EnvPresents w v s →
    ∃ u, Transacts (.din w) s u ∧ u.portRdata = v ∧ u.sr = v

/-- Order of operations: under a blocking host any list of operations and resets runs one after another in the order issued,
each from the state the one before left, and nothing of one is merged into, dropped for or reordered with another; the run
is then over (R39, R8, and R36, an inference of the spec's own). The host is the model's: its actions are laid out as
`inputs` by `hostScript` (log 2, log 7). What a reset of the list leaves in RXD and adds to the history is the model's choice
(log 1, log 4), as are the samples in the history (log 3). R8 gives the end of a run for a list of operations; that a list
with resets is over only when its resets too have been presented is the model's choice (DESIGN CHOICE, log 16). -/
def Obligations.OperationsRunInIssueOrder : Prop :=
  ∀ (as : List HostAct) (s : State), s.busy = false → s.inputs = hostScript as →
    run (hostScript as).length s = .next (as.foldl afterAct { s with inputs := [] }) ∧
    (as.foldl afterAct { s with inputs := [] }).runOver = true
end

