-- ==== Sys2Proof/Laws/State.lean ====
section
/-! SUPPORT. What each named update of the state writes and leaves: one lemma for each field of each update, true by
unfolding, so that no later proof unfolds a record update. -/

namespace Sys2Proof.Machine

@[simp] theorem State.setDout_busy (v : Level) (s : State) : (s.setDout v).busy = s.busy := rfl
@[simp] theorem State.setDout_opl (v : Level) (s : State) : (s.setDout v).opl = s.opl := rfl
@[simp] theorem State.setDout_sr (v : Level) (s : State) : (s.setDout v).sr = s.sr := rfl
@[simp] theorem State.setDout_upc (v : Level) (s : State) : (s.setDout v).upc = s.upc := rfl
@[simp] theorem State.setDout_cnt (v : Level) (s : State) : (s.setDout v).cnt = s.cnt := rfl
@[simp] theorem State.setDout_clk (v : Level) (s : State) : (s.setDout v).clk = s.clk := rfl
@[simp] theorem State.setDout_dout (v : Level) (s : State) : (s.setDout v).dout = v := rfl
@[simp] theorem State.setDout_dir (v : Level) (s : State) : (s.setDout v).dir = s.dir := rfl
@[simp] theorem State.setDout_rxd (v : Level) (s : State) : (s.setDout v).rxd = s.rxd := rfl
@[simp] theorem State.setDout_hist (v : Level) (s : State) : (s.setDout v).hist = s.hist := rfl
@[simp] theorem State.setDout_inputs (v : Level) (s : State) : (s.setDout v).inputs = s.inputs := rfl

@[simp] theorem State.setDir_busy (d : Dir) (s : State) : (s.setDir d).busy = s.busy := rfl
@[simp] theorem State.setDir_opl (d : Dir) (s : State) : (s.setDir d).opl = s.opl := rfl
@[simp] theorem State.setDir_sr (d : Dir) (s : State) : (s.setDir d).sr = s.sr := rfl
@[simp] theorem State.setDir_upc (d : Dir) (s : State) : (s.setDir d).upc = s.upc := rfl
@[simp] theorem State.setDir_cnt (d : Dir) (s : State) : (s.setDir d).cnt = s.cnt := rfl
@[simp] theorem State.setDir_clk (d : Dir) (s : State) : (s.setDir d).clk = s.clk := rfl
@[simp] theorem State.setDir_dout (d : Dir) (s : State) : (s.setDir d).dout = s.dout := rfl
@[simp] theorem State.setDir_dir (d : Dir) (s : State) : (s.setDir d).dir = d := rfl
@[simp] theorem State.setDir_rxd (d : Dir) (s : State) : (s.setDir d).rxd = s.rxd := rfl
@[simp] theorem State.setDir_hist (d : Dir) (s : State) : (s.setDir d).hist = s.hist := rfl
@[simp] theorem State.setDir_inputs (d : Dir) (s : State) : (s.setDir d).inputs = s.inputs := rfl

@[simp] theorem State.clockRise_busy (s : State) : (s.clockRise).busy = s.busy := rfl
@[simp] theorem State.clockRise_opl (s : State) : (s.clockRise).opl = s.opl := rfl
@[simp] theorem State.clockRise_sr (s : State) : (s.clockRise).sr = s.sr := rfl
@[simp] theorem State.clockRise_upc (s : State) : (s.clockRise).upc = s.upc := rfl
@[simp] theorem State.clockRise_cnt (s : State) : (s.clockRise).cnt = s.cnt := rfl
@[simp] theorem State.clockRise_clk (s : State) : (s.clockRise).clk = high := rfl
@[simp] theorem State.clockRise_dout (s : State) : (s.clockRise).dout = s.dout := rfl
@[simp] theorem State.clockRise_dir (s : State) : (s.clockRise).dir = s.dir := rfl
@[simp] theorem State.clockRise_rxd (s : State) : (s.clockRise).rxd = s.rxd := rfl
@[simp] theorem State.clockRise_hist (s : State) : (s.clockRise).hist = .rise s.dir s.dout :: s.hist := rfl
@[simp] theorem State.clockRise_inputs (s : State) : (s.clockRise).inputs = s.inputs := rfl

@[simp] theorem State.clockFall_busy (s : State) : (s.clockFall).busy = s.busy := rfl
@[simp] theorem State.clockFall_opl (s : State) : (s.clockFall).opl = s.opl := rfl
@[simp] theorem State.clockFall_sr (s : State) : (s.clockFall).sr = s.sr := rfl
@[simp] theorem State.clockFall_upc (s : State) : (s.clockFall).upc = s.upc := rfl
@[simp] theorem State.clockFall_cnt (s : State) : (s.clockFall).cnt = s.cnt + 1 := rfl
@[simp] theorem State.clockFall_clk (s : State) : (s.clockFall).clk = low := rfl
@[simp] theorem State.clockFall_dout (s : State) : (s.clockFall).dout = s.dout := rfl
@[simp] theorem State.clockFall_dir (s : State) : (s.clockFall).dir = s.dir := rfl
@[simp] theorem State.clockFall_rxd (s : State) : (s.clockFall).rxd = s.rxd := rfl
@[simp] theorem State.clockFall_hist (s : State) : (s.clockFall).hist = .fall s.dir s.dout :: s.hist := rfl
@[simp] theorem State.clockFall_inputs (s : State) : (s.clockFall).inputs = s.inputs := rfl

@[simp] theorem State.sampleBit_busy (i : Fin 8) (s : State) : (s.sampleBit i).busy = s.busy := rfl
@[simp] theorem State.sampleBit_opl (i : Fin 8) (s : State) : (s.sampleBit i).opl = s.opl := rfl
@[simp] theorem State.sampleBit_sr (i : Fin 8) (s : State) : (s.sampleBit i).sr = insertBit s.sr i s.wire := rfl
@[simp] theorem State.sampleBit_upc (i : Fin 8) (s : State) : (s.sampleBit i).upc = s.upc := rfl
@[simp] theorem State.sampleBit_cnt (i : Fin 8) (s : State) : (s.sampleBit i).cnt = s.cnt := rfl
@[simp] theorem State.sampleBit_clk (i : Fin 8) (s : State) : (s.sampleBit i).clk = s.clk := rfl
@[simp] theorem State.sampleBit_dout (i : Fin 8) (s : State) : (s.sampleBit i).dout = s.dout := rfl
@[simp] theorem State.sampleBit_dir (i : Fin 8) (s : State) : (s.sampleBit i).dir = s.dir := rfl
@[simp] theorem State.sampleBit_rxd (i : Fin 8) (s : State) : (s.sampleBit i).rxd = s.rxd := rfl
@[simp] theorem State.sampleBit_hist (i : Fin 8) (s : State) : (s.sampleBit i).hist = .sample s.wire :: s.hist := rfl
@[simp] theorem State.sampleBit_inputs (i : Fin 8) (s : State) : (s.sampleBit i).inputs = s.inputs := rfl

@[simp] theorem State.finishFrame_busy (s : State) : (s.finishFrame).busy = false := rfl
@[simp] theorem State.finishFrame_opl (s : State) : (s.finishFrame).opl = s.opl := rfl
@[simp] theorem State.finishFrame_sr (s : State) : (s.finishFrame).sr = s.sr := rfl
@[simp] theorem State.finishFrame_upc (s : State) : (s.finishFrame).upc = s.upc := rfl
@[simp] theorem State.finishFrame_cnt (s : State) : (s.finishFrame).cnt = s.cnt := rfl
@[simp] theorem State.finishFrame_clk (s : State) : (s.finishFrame).clk = s.clk := rfl
@[simp] theorem State.finishFrame_dout (s : State) : (s.finishFrame).dout = s.dout := rfl
@[simp] theorem State.finishFrame_dir (s : State) : (s.finishFrame).dir = s.dir := rfl
@[simp] theorem State.finishFrame_rxd (s : State) : (s.finishFrame).rxd = if s.opl = .din then s.sr else s.rxd := rfl
@[simp] theorem State.finishFrame_hist (s : State) : (s.finishFrame).hist = s.hist := rfl
@[simp] theorem State.finishFrame_inputs (s : State) : (s.finishFrame).inputs = s.inputs := rfl

@[simp] theorem State.nextMicro_busy (s : State) : (s.nextMicro).busy = s.busy := rfl
@[simp] theorem State.nextMicro_opl (s : State) : (s.nextMicro).opl = s.opl := rfl
@[simp] theorem State.nextMicro_sr (s : State) : (s.nextMicro).sr = s.sr := rfl
@[simp] theorem State.nextMicro_upc (s : State) : (s.nextMicro).upc = s.upc + 1 := rfl
@[simp] theorem State.nextMicro_cnt (s : State) : (s.nextMicro).cnt = s.cnt := rfl
@[simp] theorem State.nextMicro_clk (s : State) : (s.nextMicro).clk = s.clk := rfl
@[simp] theorem State.nextMicro_dout (s : State) : (s.nextMicro).dout = s.dout := rfl
@[simp] theorem State.nextMicro_dir (s : State) : (s.nextMicro).dir = s.dir := rfl
@[simp] theorem State.nextMicro_rxd (s : State) : (s.nextMicro).rxd = s.rxd := rfl
@[simp] theorem State.nextMicro_hist (s : State) : (s.nextMicro).hist = s.hist := rfl
@[simp] theorem State.nextMicro_inputs (s : State) : (s.nextMicro).inputs = s.inputs := rfl

@[simp] theorem State.takeReset_busy (s : State) : (s.takeReset).busy = false := rfl
@[simp] theorem State.takeReset_opl (s : State) : (s.takeReset).opl = .null := rfl
@[simp] theorem State.takeReset_sr (s : State) : (s.takeReset).sr = 0 := rfl
@[simp] theorem State.takeReset_upc (s : State) : (s.takeReset).upc = 0 := rfl
@[simp] theorem State.takeReset_cnt (s : State) : (s.takeReset).cnt = 0 := rfl
@[simp] theorem State.takeReset_clk (s : State) : (s.takeReset).clk = low := rfl
@[simp] theorem State.takeReset_dout (s : State) : (s.takeReset).dout = low := rfl
@[simp] theorem State.takeReset_dir (s : State) : (s.takeReset).dir = .input := rfl
@[simp] theorem State.takeReset_rxd (s : State) : (s.takeReset).rxd = Config.rxdReset (.reset s.clk :: s.hist) := rfl
@[simp] theorem State.takeReset_hist (s : State) : (s.takeReset).hist = .reset s.clk :: s.hist := rfl
@[simp] theorem State.takeReset_inputs (s : State) : (s.takeReset).inputs = s.inputs := rfl

@[simp] theorem State.passInputs_busy (s : State) : (s.passInputs).busy = s.busy := rfl
@[simp] theorem State.passInputs_opl (s : State) : (s.passInputs).opl = s.opl := rfl
@[simp] theorem State.passInputs_sr (s : State) : (s.passInputs).sr = s.sr := rfl
@[simp] theorem State.passInputs_upc (s : State) : (s.passInputs).upc = s.upc := rfl
@[simp] theorem State.passInputs_cnt (s : State) : (s.passInputs).cnt = s.cnt := rfl
@[simp] theorem State.passInputs_clk (s : State) : (s.passInputs).clk = s.clk := rfl
@[simp] theorem State.passInputs_dout (s : State) : (s.passInputs).dout = s.dout := rfl
@[simp] theorem State.passInputs_dir (s : State) : (s.passInputs).dir = s.dir := rfl
@[simp] theorem State.passInputs_rxd (s : State) : (s.passInputs).rxd = s.rxd := rfl
@[simp] theorem State.passInputs_hist (s : State) : (s.passInputs).hist = s.hist := rfl
@[simp] theorem State.passInputs_inputs (s : State) : (s.passInputs).inputs = s.inputs.tail := rfl

/-- START in an idle state latches the operation and its byte and restarts the counters (R80). -/
theorem State.issue_idle {s : State} (h : s.busy = false) (op : OpSel) (b : Byte) :
    s.issue op b = { s with busy := true, opl := op, sr := b, upc := 0, cnt := 0 } := by
  simp [State.issue, h]

/-- START in a busy state changes nothing (R80). -/
theorem State.issue_busy {s : State} (h : s.busy = true) (op : OpSel) (b : Byte) : s.issue op b = s := by
  simp [State.issue, h]

/-- The line shows the latch while the codec drives (R38). -/
theorem State.wire_output {s : State} (h : s.dir = .output) : s.wire = s.dout := by
  simp [State.wire, h]

/-- The line shows what `env` answers while the codec does not drive (R38). -/
theorem State.wire_input {s : State} (h : s.dir = .input) : s.wire = Config.env s.hist := by
  simp [State.wire, h]

end Sys2Proof.Machine
end

