-- ==== Sys2Proof/Laws/Codec.lean ====
section
/-! SUPPORT. What one micro-operation and one codec step can do, and the shape of the micro-programs. -/

namespace Sys2Proof.Machine

@[simp] theorem perform_dh (s : State) : perform .dh s = s.setDout high := rfl
@[simp] theorem perform_dl (s : State) : perform .dl s = s.setDout low := rfl
@[simp] theorem perform_db (i : Fin 8) (s : State) : perform (.db i) s = s.setDout (bitOf s.sr i) := rfl
@[simp] theorem perform_diro (s : State) : perform .diro s = s.setDir .output := rfl
@[simp] theorem perform_diri (s : State) : perform .diri s = s.setDir .input := rfl
@[simp] theorem perform_cr (s : State) : perform .cr s = s.clockRise := rfl
@[simp] theorem perform_cf (s : State) : perform .cf s = s.clockFall := rfl
@[simp] theorem perform_sm (i : Fin 8) (s : State) : perform (.sm i) s = s.sampleBit i := rfl
@[simp] theorem perform_endFrame (s : State) : perform .endFrame s = s.finishFrame := rfl

/-- The codec's step goes to a next state exactly when UPC is inside the micro-program, and then performs that entry. -/
theorem codecStep_eq_next {s t : State} :
    codecStep s = .next t ↔ ∃ u, s.nextOp = some u ∧ t = (perform u s).nextMicro := by
  unfold codecStep
  cases h : s.nextOp with
  | none => simp
  | some u => simp [eq_comm]

/-- The codec's step at a known micro-operation. -/
theorem codecStep_of_nextOp {s : State} {u : MicroOp} (h : s.nextOp = some u) :
    codecStep s = .next (perform u s).nextMicro := by
  simp [codecStep, h]

@[simp] theorem State.passInputs_nextOp (s : State) : s.passInputs.nextOp = s.nextOp := rfl
@[simp] theorem State.passInputs_wire (s : State) : s.passInputs.wire = s.wire := rfl

theorem length_muCtrl : muCtrl.length = 37 := rfl
theorem length_muNull : muNull.length = 26 := rfl
theorem length_muDout : muDout.length = 37 := rfl
theorem length_muDin : muDin.length = 36 := rfl

/-- No micro-program is longer than the 6 bits of UPC can count (R14). -/
theorem length_mu_le (op : OpSel) : (mu op).length ≤ 37 := by cases op <;> decide

/-- No micro-operation changes OPL, UPC or the host's inputs (R12, R25). -/
theorem perform_keeps (u : MicroOp) (s : State) :
    (perform u s).opl = s.opl ∧ (perform u s).upc = s.upc ∧ (perform u s).inputs = s.inputs := by
  cases u <;> exact ⟨rfl, rfl, rfl⟩

end Sys2Proof.Machine
end

