-- ==== Sys2Proof/Laws/Decode.lean ====
section
/-! SUPPORT. The two fields of a command word and the word made of two fields, and the codes of the operations. -/

namespace Sys2Proof

/-- The `op` field of a word made of two fields. -/
theorem CommandWord.op_append (c : BitVec 2) (b : Byte) : CommandWord.op (c ++ b) = c := by
  have h : ∀ c : BitVec 2, c = 0#2 ∨ c = 1#2 ∨ c = 2#2 ∨ c = 3#2 := by decide
  rcases h c with rfl | rfl | rfl | rfl <;> revert b <;> decide

/-- The `wdata` field of a word made of two fields. -/
theorem CommandWord.wdata_append (c : BitVec 2) (b : Byte) : CommandWord.wdata (c ++ b) = b := by
  have h : ∀ c : BitVec 2, c = 0#2 ∨ c = 1#2 ∨ c = 2#2 ∨ c = 3#2 := by decide
  rcases h c with rfl | rfl | rfl | rfl <;> revert b <;> decide

/-- A word is made of its two fields. -/
theorem CommandWord.append_fields (w : CommandWord) : (w.op ++ w.wdata : CommandWord) = w := by
  apply BitVec.eq_of_getLsbD_eq
  intro i hi
  simp only [CommandWord.op, CommandWord.wdata, BitVec.getLsbD_append, BitVec.getLsbD_extractLsb']
  split <;> simp_all
  omega

/-- Every code names an operation, whose code it is (R51). -/
theorem OpSel.code_ofCode (c : BitVec 2) : (OpSel.ofCode c).code = c := by
  revert c; decide

/-- The operation of an operation's code is the operation (R51). -/
theorem OpSel.ofCode_code (op : OpSel) : OpSel.ofCode op.code = op := by
  cases op <;> decide

/-- An instruction is its operation and its byte. -/
theorem Instr.ofParts_parts (i : Instr) : Instr.ofParts i.opSel i.wdata = i := by
  cases i <;> rfl

/-- The operation of an instruction made of parts. -/
@[simp] theorem Instr.opSel_ofParts (op : OpSel) (b : Byte) : (Instr.ofParts op b).opSel = op := by
  cases op <;> rfl

/-- The byte of an instruction made of parts. -/
@[simp] theorem Instr.wdata_ofParts (op : OpSel) (b : Byte) : (Instr.ofParts op b).wdata = b := by
  cases op <;> rfl

end Sys2Proof
end

