-- ==== Sys2Proof/Laws/Step.lean ====
section
/-! SUPPORT. What one step of the machine can do, by whose turn it is (R102), and how runs compose. -/

namespace Sys2Proof.Machine

/-- Each instruction's meaning is its START (R80). -/
theorem exec_eq_issue (i : Instr) (s : State) : exec i s = .next (s.issue i.opSel i.wdata) := by
  cases i <;> rfl

/-- A step that ends in a next state is a reset, a micro-operation, a START or a wait. -/
theorem step_cases {s t : State} (h : step s = .next t) :
    (s.port.rst = true ∧ t = s.passInputs.takeReset) ∨
    (s.port.rst = false ∧ s.busy = true ∧ ∃ u, s.nextOp = some u ∧ t = (perform u s.passInputs).nextMicro) ∨
    (s.port.rst = false ∧ s.busy = false ∧ s.port.start = true ∧
      ∃ i, i = decodeWord (s.port.op ++ s.port.wdata) ∧ t = s.passInputs.issue i.opSel i.wdata) ∨
    (s.port.rst = false ∧ s.busy = false ∧ s.port.start = false ∧ t = s.passInputs) := by
  unfold step nextTurn at h
  cases hr : s.port.rst <;> cases hb : s.busy <;> cases hs : s.port.start <;>
    simp only [hr, hb, hs, if_true, if_false, Bool.false_eq_true, exec_eq_issue, codecStep_eq_next,
      Host.Outcome.next.injEq, State.passInputs_nextOp] at h <;> simp_all

/-- The step of a running codec that is not reset performs its next micro-operation. -/
theorem step_codec {s : State} {u : MicroOp} (hr : s.port.rst = false) (hb : s.busy = true)
    (hu : s.nextOp = some u) : step s = .next (perform u s.passInputs).nextMicro := by
  simp [step, nextTurn, hr, hb, codecStep, hu]

/-- The step of an idle codec that is not reset and sees `start` is the decoded instruction's. -/
theorem step_start {s : State} (hr : s.port.rst = false) (hb : s.busy = false) (hs : s.port.start = true) :
    step s = exec (decodeWord (s.port.op ++ s.port.wdata)) s.passInputs := by
  simp [step, nextTurn, hr, hb, hs]

/-- A run of `m + n` steps is a run of `m` and then one of `n`. -/
theorem run_add {m n : Nat} {s t : State} (h : run m s = .next t) : run (m + n) s = run n t := by
  induction m generalizing s with
  | zero => simp only [run, Host.Outcome.next.injEq] at h; simp [h]
  | succ m ih =>
    rw [Nat.succ_add_eq_add_succ, Nat.add_succ]
    simp only [run] at h ⊢
    cases hs : step s with
    | next r => rw [hs] at h; exact ih h
    | fault f => rw [hs] at h; cases h
    | refused r => rw [hs] at h; cases h

/-- `run` is the host's run of the machine. -/
theorem run_eq_core_run (n : Nat) (s : State) : run n s = Sys2Proof.core.run n s := by
  induction n generalizing s with
  | zero => rfl
  | succ n ih =>
    cases h : step s with
    | next t => simpa only [run, Host.Core.run, h, show Sys2Proof.core.step s = .next t from h] using ih t
    | fault f => simp only [run, Host.Core.run, h, show Sys2Proof.core.step s = .fault f from h]; rfl
    | refused r => simp only [run, Host.Core.run, h, show Sys2Proof.core.step s = .refused r from h]; rfl

/-- The host does not reset in the next step of a stretch in which it does not reset. -/
theorem NoReset.head {n : Nat} {s : State} (h : NoReset (n + 1) s) : s.port.rst = false := by
  unfold State.port
  cases hi : s.inputs with
  | nil => rfl
  | cons p ps => exact h p (by simp [hi])

/-- What is left of a stretch in which the host does not reset, after one step's inputs have passed. -/
theorem NoReset.tail {n : Nat} {s t : State} (h : NoReset (n + 1) s) (ht : t.inputs = s.inputs.tail) : NoReset n t := by
  intro p hp
  apply h
  rw [ht] at hp
  cases hi : s.inputs with
  | nil => rw [hi] at hp; simp at hp
  | cons q qs => rw [hi] at hp; simpa using Or.inr hp

end Sys2Proof.Machine
end

