-- ==== Sys2Proof/Laws/Invariant.lean ====
section
/-! SUPPORT. How the parts of the invariant follow one more micro-operation, and how a fact about the constant tables is
carried to the states of a running frame. -/

namespace Sys2Proof.Machine

/-- The clock level after one more micro-operation. -/
theorem clkAfter_snoc (p : List MicroOp) (u : MicroOp) :
    clkAfter (p ++ [u]) = (match u with | .cr => high | .cf => low | _ => clkAfter p) := by
  cases u <;> simp [clkAfter]

/-- The cycles completed after one more micro-operation. -/
theorem cyclesAfter_snoc (p : List MicroOp) (u : MicroOp) :
    cyclesAfter (p ++ [u]) = (match u with | .cf => cyclesAfter p + 1 | _ => cyclesAfter p) := by
  cases u <;> simp [cyclesAfter]

/-- The direction set after one more micro-operation. -/
theorem dirAfter_snoc (p : List MicroOp) (u : MicroOp) :
    dirAfter (p ++ [u]) = (match u with | .diro => some .output | .diri => some .input | _ => dirAfter p) := by
  cases u <;> simp [dirAfter]

/-- The latch level set after one more micro-operation. -/
theorem doutAfter_snoc (sr : Byte) (p : List MicroOp) (u : MicroOp) :
    doutAfter sr (p ++ [u]) =
      (match u with | .dh => some high | .dl => some low | .db i => some (bitOf sr i) | _ => doutAfter sr p) := by
  cases u <;> simp [doutAfter]

/-- The invariant of a busy state. -/
theorem State.Inv.midFrame {s : State} (h : s.Inv) (hb : s.busy = true) : s.MidFrame := by
  simpa [State.Inv, hb] using h

/-- The invariant of an idle state. -/
theorem State.Inv.betweenFrames {s : State} (h : s.Inv) (hb : s.busy = false) : s.BetweenFrames := by
  simpa [State.Inv, hb] using h

/-- A check that every entry of every micro-program passes, with what stands before it, holds at the next micro-operation
of every running frame. -/
theorem nextOp_of_table (P : OpSel → Nat → MicroOp → List MicroOp → Bool)
    (h : ∀ op, ∀ n < 37, ((mu op)[n]?.all fun u => P op n u ((mu op).take n)) = true)
    {s : State} (hi : s.Inv) (hb : s.busy = true) {u : MicroOp} (hu : s.nextOp = some u) :
    P s.opl s.upc.toNat u s.performed = true := by
  have hall := h s.opl s.upc.toNat (lt_of_lt_of_le (hi.midFrame hb).1 (length_mu_le _))
  unfold State.nextOp at hu
  simpa [hu, State.performed] using hall

/-- A running frame has a next micro-operation. -/
theorem State.Inv.exists_nextOp {s : State} (h : s.Inv) (hb : s.busy = true) : ∃ u, s.nextOp = some u :=
  ⟨_, List.getElem?_eq_getElem (h.midFrame hb).1⟩

end Sys2Proof.Machine
end

