-- ==== Sys2Proof/Laws/Operands.lean ====
section
/-! SUPPORT. What bit extraction, bit insertion and byte assembly do, in terms of the bits of a byte. -/

namespace Sys2Proof.Machine

/-- Bit extraction reads the bit of that index. -/
theorem bitOf_eq_getLsbD (b : Byte) (i : Fin 8) : bitOf b i = b.getLsbD i.val := by
  revert b; fin_cases i <;> decide

/-- Inserting a bit writes it at its index and keeps the other seven. -/
theorem insertBit_getLsbD (b : Byte) (i j : Fin 8) (v : Level) :
    (insertBit b i v).getLsbD j.val = if j = i then v else b.getLsbD j.val := by
  revert b; fin_cases i <;> fin_cases j <;> cases v <;> decide

/-- The byte made of the bits of a byte is that byte. -/
theorem byteOfBits_bitsOfByte (b : Byte) : byteOfBits (bitsOfByte b) = b := by
  revert b; decide

/-- Eight insertions in wire order overwrite the whole byte, whatever it held (R13, R87). -/
theorem insertBit_all (b : Byte) (v0 v1 v2 v3 v4 v5 v6 v7 : Level) :
    insertBit (insertBit (insertBit (insertBit (insertBit (insertBit (insertBit (insertBit b 0 v0) 1 v1) 2 v2) 3 v3)
      4 v4) 5 v5) 6 v6) 7 v7 = byteOfBits [v0, v1, v2, v3, v4, v5, v6, v7] := by
  apply BitVec.eq_of_getLsbD_eq
  intro k hk
  obtain ⟨j, rfl⟩ : ∃ j : Fin 8, j.val = k := ⟨⟨k, hk⟩, rfl⟩
  simp only [insertBit_getLsbD]
  generalize b.getLsbD j.val = x
  revert x v0 v1 v2 v3 v4 v5 v6 v7
  fin_cases j <;> decide

end Sys2Proof.Machine
end

