-- ==== Sys2Proof/Laws/PerInstr.lean ====
section
/-! SUPPORT. Statements about each instruction as syntax, one lemma for each constructor of Instr. -/

/-- The `match` value and mask of an instruction's row of spec/opcode_table.json: its command word, masked, is the row's
value, and the bits outside the mask are its byte (R50, R51). -/
def Sys2Proof.Laws.MatchMask.Statement (i : Sys2Proof.Instr) : Prop :=
  (Sys2Proof.encode i) &&& 0x300#10 =
      (match i with
        | .ctrl _ => 0x000#10
        | .null _ => 0x100#10
        | .dout _ => 0x200#10
        | .din _ => 0x300#10) ∧
    (Sys2Proof.encode i).setWidth 8 = i.wdata ∧ i.wellFormed = true

theorem Sys2Proof.Laws.MatchMask.ctrl (payload : Sys2Proof.Byte) : Sys2Proof.Laws.MatchMask.Statement (.ctrl payload) := by
  unfold Sys2Proof.Laws.MatchMask.Statement; revert payload; decide

theorem Sys2Proof.Laws.MatchMask.null (wdata : Sys2Proof.Byte) : Sys2Proof.Laws.MatchMask.Statement (.null wdata) := by
  unfold Sys2Proof.Laws.MatchMask.Statement; revert wdata; decide

theorem Sys2Proof.Laws.MatchMask.dout (payload : Sys2Proof.Byte) : Sys2Proof.Laws.MatchMask.Statement (.dout payload) := by
  unfold Sys2Proof.Laws.MatchMask.Statement; revert payload; decide

theorem Sys2Proof.Laws.MatchMask.din (wdata : Sys2Proof.Byte) : Sys2Proof.Laws.MatchMask.Statement (.din wdata) := by
  unfold Sys2Proof.Laws.MatchMask.Statement; revert wdata; decide
end

