-- ==== Sys2Proof/Laws/Run.lean ====
section
/-! SUPPORT. Runs of the codec inside one frame: a run of `n` steps without reset performs the first `n` micro-operations
one after another, and what each does to a state written out. -/

namespace Sys2Proof.Machine

/-- One step of a running codec: the host's inputs pass, the micro-operation is performed, UPC moves on. -/
def microStep (s : State) (u : MicroOp) : State := (perform u s.passInputs).nextMicro

/-- Only the last entry of a micro-program is END. -/
theorem endFrame_not_mem_dropLast (op : OpSel) : ∀ u ∈ (mu op).dropLast, u ≠ MicroOp.endFrame := by
  cases op <;> decide

/-- A run over a stretch of the micro-program without END before its last entry performs the stretch. -/
theorem run_stretch (us rest : List MicroOp) (s : State) (hb : s.busy = true)
    (hd : (mu s.opl).drop s.upc.toNat = us ++ rest) (hne : ∀ u ∈ us.dropLast, u ≠ .endFrame)
    (hr : NoReset us.length s) : run us.length s = .next (us.foldl microStep s) := by
  induction us generalizing s with
  | nil => rfl
  | cons u us ih =>
    have hu : s.nextOp = some u := by
      simpa [State.nextOp, List.head?_drop] using congrArg List.head? hd
    simp only [List.length_cons, run, step_codec hr.head hb hu, List.foldl_cons]
    cases us with
    | nil => rfl
    | cons v vs =>
      have hu' : u ≠ .endFrame := hne u (by simp)
      have hlt : s.upc.toNat < (mu s.opl).length := by
        have := congrArg List.length hd
        simp at this
        omega
      have hle := length_mu_le s.opl
      have hupc : (microStep s u).upc.toNat = s.upc.toNat + 1 := by
        simp only [microStep, State.nextMicro_upc, (perform_keeps u _).2.1, State.passInputs_upc]
        rw [BitVec.toNat_add]
        simp
        omega
      have hopl : (microStep s u).opl = s.opl := by
        simp only [microStep, State.nextMicro_opl, (perform_keeps u _).1, State.passInputs_opl]
      apply ih (microStep s u)
      · cases u <;> simp_all [microStep]
      · rw [hupc, hopl, ← List.drop_drop, hd]
        rfl
      · intro w hw
        exact hne w (by simp [List.dropLast] at hw ⊢; exact Or.inr hw)
      · exact hr.tail (by
          simp only [microStep, State.nextMicro_inputs, (perform_keeps u _).2.2, State.passInputs_inputs])

/-- From the start of a frame, `n` steps without reset perform the first `n` micro-operations of its micro-program. -/
theorem run_from_start {s : State} {n : Nat} (hb : s.busy = true) (hu : s.upc = 0) (hn : n ≤ (mu s.opl).length)
    (hr : NoReset n s) : run n s = .next (((mu s.opl).take n).foldl microStep s) := by
  have hl : ((mu s.opl).take n).length = n := by simp; omega
  have h := run_stretch ((mu s.opl).take n) ((mu s.opl).drop n) s hb (by simp [hu])
    (by
      intro u hm
      apply endFrame_not_mem_dropLast s.opl
      rw [List.dropLast_eq_take] at hm ⊢
      rw [List.take_take] at hm
      exact (List.take_subset_take_left _ (by simp; omega)) hm)
    (by rwa [hl])
  rwa [hl] at h

/-- The clock edge a micro-operation makes, if it makes one (R75, R76). -/
def clockEdge : MicroOp → Option Level
  | .cr => some high
  | .cf => some low
  | _ => none

@[simp] theorem edgesOf_append (es fs : List LineEvent) : edgesOf (es ++ fs) = edgesOf es ++ edgesOf fs := by
  simp [edgesOf]

/-- What one micro-operation adds to the line history, and what it does to the clock and the cycle count. -/
theorem microStep_line (s : State) (u : MicroOp) :
    ∃ es, (microStep s u).hist = es.reverse ++ s.hist ∧ edgesOf es = (clockEdge u).toList ∧
      (microStep s u).clk = (clockEdge u).getD s.clk ∧ (microStep s u).cnt = s.cnt + BitVec.ofNat 4 (cyclesAfter [u]) := by
  cases u with
  | cr => exact ⟨[.rise s.dir s.dout], rfl, rfl, rfl, by simp [microStep, cyclesAfter]⟩
  | cf => exact ⟨[.fall s.dir s.dout], rfl, rfl, rfl, by simp [microStep, cyclesAfter]⟩
  | sm i => exact ⟨[.sample s.wire], rfl, rfl, rfl, by simp [microStep, cyclesAfter]⟩
  | _ => exact ⟨[], rfl, rfl, rfl, by simp [microStep, cyclesAfter]⟩

/-- What a stretch of micro-operations adds to the line history, and what it does to the clock and the cycle count. -/
theorem foldl_microStep_line (us : List MicroOp) (s : State) :
    ∃ es, (us.foldl microStep s).hist = es.reverse ++ s.hist ∧ edgesOf es = us.filterMap clockEdge ∧
      (us.foldl microStep s).clk = us.foldl (fun c u => (clockEdge u).getD c) s.clk ∧
      (us.foldl microStep s).cnt = s.cnt + BitVec.ofNat 4 (cyclesAfter us) := by
  induction us generalizing s with
  | nil => exact ⟨[], by simp [edgesOf, cyclesAfter]⟩
  | cons u us ih =>
    obtain ⟨es, h1, h2, h3, h4⟩ := microStep_line s u
    obtain ⟨fs, i1, i2, i3, i4⟩ := ih (microStep s u)
    refine ⟨es ++ fs, by simp [i1, h1], ?_, by rw [List.foldl_cons, i3, h3]; rfl, ?_⟩
    · rw [edgesOf_append, h2, i2, List.filterMap_cons]
      cases clockEdge u <;> rfl
    · rw [List.foldl_cons, i4, h4, BitVec.add_assoc, ← BitVec.ofNat_add]
      simp only [cyclesAfter, ← List.countP_append, List.singleton_append]

/-- A stretch of micro-operations without END leaves the codec as busy as it was. -/
theorem foldl_microStep_busy (us : List MicroOp) (s : State) (h : ∀ u ∈ us, u ≠ .endFrame) :
    (us.foldl microStep s).busy = s.busy := by
  induction us generalizing s with
  | nil => rfl
  | cons u us ih =>
    rw [List.foldl_cons, ih _ fun w hw => h w (List.mem_cons_of_mem _ hw)]
    have := h u List.mem_cons_self
    cases u <;> simp_all [microStep]

/-- Each micro-operation uses up one step's inputs and moves UPC on by one. -/
theorem foldl_microStep_inputs_upc (us : List MicroOp) (s : State) :
    (us.foldl microStep s).inputs = s.inputs.drop us.length ∧
      (us.foldl microStep s).upc = s.upc + BitVec.ofNat 6 us.length := by
  induction us generalizing s with
  | nil => simp
  | cons u us ih =>
    have hi : (microStep s u).inputs = s.inputs.tail := by simp [microStep, (perform_keeps u _).2.2]
    have hu : (microStep s u).upc = s.upc + 1 := by simp [microStep, (perform_keeps u _).2.1]
    rw [List.foldl_cons, (ih _).1, (ih _).2, hi, hu, List.drop_tail, List.length_cons, Nat.add_comm us.length 1,
      BitVec.ofNat_add, ← BitVec.add_assoc]
    simp [Nat.add_comm]

section
variable (bs : Bool) (op : OpSel) (sr : Byte) (upc : BitVec 6) (cnt : BitVec 4) (clk dout : Level) (dir : Dir)
  (rxd : Byte) (h : List LineEvent) (inp : List PortIn)

theorem microStep_dh : microStep ⟨bs, op, sr, upc, cnt, clk, dout, dir, rxd, h, inp⟩ .dh =
    ⟨bs, op, sr, upc + 1, cnt, clk, high, dir, rxd, h, inp.tail⟩ := rfl

theorem microStep_dl : microStep ⟨bs, op, sr, upc, cnt, clk, dout, dir, rxd, h, inp⟩ .dl =
    ⟨bs, op, sr, upc + 1, cnt, clk, low, dir, rxd, h, inp.tail⟩ := rfl

theorem microStep_db (i : Fin 8) : microStep ⟨bs, op, sr, upc, cnt, clk, dout, dir, rxd, h, inp⟩ (.db i) =
    ⟨bs, op, sr, upc + 1, cnt, clk, bitOf sr i, dir, rxd, h, inp.tail⟩ := rfl

theorem microStep_diro : microStep ⟨bs, op, sr, upc, cnt, clk, dout, dir, rxd, h, inp⟩ .diro =
    ⟨bs, op, sr, upc + 1, cnt, clk, dout, .output, rxd, h, inp.tail⟩ := rfl

theorem microStep_diri : microStep ⟨bs, op, sr, upc, cnt, clk, dout, dir, rxd, h, inp⟩ .diri =
    ⟨bs, op, sr, upc + 1, cnt, clk, dout, .input, rxd, h, inp.tail⟩ := rfl

theorem microStep_cr : microStep ⟨bs, op, sr, upc, cnt, clk, dout, dir, rxd, h, inp⟩ .cr =
    ⟨bs, op, sr, upc + 1, cnt, high, dout, dir, rxd, .rise dir dout :: h, inp.tail⟩ := rfl

theorem microStep_cf : microStep ⟨bs, op, sr, upc, cnt, clk, dout, dir, rxd, h, inp⟩ .cf =
    ⟨bs, op, sr, upc + 1, cnt + 1, low, dout, dir, rxd, .fall dir dout :: h, inp.tail⟩ := rfl

theorem microStep_sm_input (i : Fin 8) :
    microStep ⟨bs, op, sr, upc, cnt, clk, dout, .input, rxd, h, inp⟩ (.sm i) =
      ⟨bs, op, insertBit sr i (Config.env h), upc + 1, cnt, clk, dout, .input, rxd, .sample (Config.env h) :: h,
        inp.tail⟩ := rfl

theorem microStep_endFrame : microStep ⟨bs, op, sr, upc, cnt, clk, dout, dir, rxd, h, inp⟩ .endFrame =
    ⟨false, op, sr, upc + 1, cnt, clk, dout, dir, if op = .din then sr else rxd, h, inp.tail⟩ := rfl

end

end Sys2Proof.Machine
end

