-- ==== Sys2Proof/Tests/Slice0.lean ====
section
/-! SUPPORT. The model's own tests. Expected values are from spec/95_test_vectors.md (V<n>) or from the rule named, not from
the model. -/

namespace Sys2Proof.Tests

open Sys2Proof Sys2Proof.Machine

/-! ### Helpers -/

/-- An idle state with the latch and direction given and RXD = 96. -/
def idleState (dout : Level) (dir : Dir) : State :=
  { busy := false, opl := .null, sr := 0x00, upc := 26, cnt := 12, clk := low, dout := dout, dir := dir, rxd := 0x96,
    hist := [], inputs := [] }

/-- The state of a running frame of `op` with `sr` in SR before micro-operation `n`, the host presenting `p`. -/
def midState (op : OpSel) (sr : Byte) (n : Nat) (p : PortIn) : State :=
  { busy := true, opl := op, sr := sr, upc := BitVec.ofNat 6 n, cnt := BitVec.ofNat 4 (cyclesAfter ((mu op).take n)),
    clk := clkAfter ((mu op).take n), dout := (doutAfter sr ((mu op).take n)).getD low,
    dir := (dirAfter ((mu op).take n)).getD .input, rxd := 0x96, hist := [], inputs := [p] }

/-- The next state of an outcome, or the state given if there is none. -/
def nextOr (d : State) (o : Host.Outcome State Fault Refusal) : State :=
  match o with
  | .next t => t
  | .fault _ => d
  | .refused _ => d

theorem cyclesAfter_take_lt (op : OpSel) : ∀ n < 37, cyclesAfter ((mu op).take n) < 16 := by
  cases op <;> decide

/-- `midState` is a state of a running frame, wherever in the frame it is. -/
theorem midState_inv (op : OpSel) (sr : Byte) (n : Nat) (p : PortIn) (h : n < (mu op).length) :
    (midState op sr n p).Inv := by
  have hn : n < 37 := lt_of_lt_of_le h (length_mu_le op)
  have hu : (BitVec.ofNat 6 n).toNat = n := by rw [BitVec.toNat_ofNat]; omega
  have hc := cyclesAfter_take_lt op n hn
  show (midState op sr n p).MidFrame
  unfold State.MidFrame State.performed midState
  simp only [hu]
  refine ⟨h, trivial, ?_, ?_, ?_⟩
  · rw [BitVec.toNat_ofNat]; omega
  · intro d hd; rw [hd]; rfl
  · intro v hv; rw [hv]; rfl

/-! ### Words written out from R51's table; V40, V42, V44, V46, V49, V51 -/

theorem test_decode_ctrl : decode 0b0001000001 = .ok (.ctrl 0x41) ∧ decode 0x000 = .ok (.ctrl 0x00) ∧
    decode 0x0FF = .ok (.ctrl 0xFF) := ⟨rfl, rfl, rfl⟩

theorem test_decode_null : decode 0b0101110111 = .ok (.null 0x77) ∧ decode 0x100 = .ok (.null 0x00) ∧
    decode 0x1FF = .ok (.null 0xFF) := ⟨rfl, rfl, rfl⟩

theorem test_decode_dout : decode 0b1010100101 = .ok (.dout 0xA5) ∧ decode 0x200 = .ok (.dout 0x00) ∧
    decode 0x2FF = .ok (.dout 0xFF) := ⟨rfl, rfl, rfl⟩

theorem test_decode_din : decode 0b1100010010 = .ok (.din 0x12) ∧ decode 0x300 = .ok (.din 0x00) ∧
    decode 0x3FF = .ok (.din 0xFF) := ⟨rfl, rfl, rfl⟩

theorem test_decode_above_ten_bits : decode 0x400 = .error .notACommandWord ∧ decodeTableWord 16 0x400 = none := ⟨rfl, rfl⟩

theorem test_table_word : decodeTableWord 16 0x2A5 = some (.dout 0xA5) ∧ decodeTableWord 16 0x300 = some (.din 0x00) :=
  ⟨rfl, rfl⟩

theorem test_encode : encode (.ctrl 0x41) = 0x041#10 ∧ encode (.null 0x77) = 0x177#10 ∧ encode (.dout 0xA5) = 0x2A5#10 ∧
    encode (.din 0x12) = 0x312#10 := by decide

/-! ### Well-formedness: the checks refuse an ill-formed micro-program -/

/-- No instruction is ill-formed (R60): each constructor's extreme bytes pass. -/
theorem test_instr_wellFormed : Instr.wellFormed (.ctrl 0xFF) = true ∧ Instr.wellFormed (.null 0xFF) = true ∧
    Instr.wellFormed (.dout 0xFF) = true ∧ Instr.wellFormed (.din 0xFF) = true := ⟨rfl, rfl, rfl, rfl⟩

/-- A program without END, and one that goes on after END. -/
theorem test_refused_end : endsOnce muNull.dropLast = false ∧ endsOnce (muNull ++ [.cr]) = false := by decide

/-- Eleven cycles (the misreading of C1), and false variant (3') of section 4.5: DIRI while the clock is high. -/
theorem test_refused_pulses : wholePulses low 0 (muNull.drop 2) = false ∧
    wholePulses low 0 (.diri :: (List.replicate 11 pulse).flatten ++ [.endFrame]) = false ∧
    wholePulses low 0 (muDin.take 5 ++ [.diri, .cf] ++ muDin.drop 7) = false := by decide

/-- A sample one cycle early, and a sample of a driven line. -/
theorem test_refused_samples : samplesInPlace none 0 (muDin.take 8 ++ [.sm 0] ++ muDin.drop 8) = false ∧
    samplesInPlace none 0 [.dh, .diro, .cr, .cf, .cr, .cf, .cr, .cf, .cr, .sm 0] = false := by decide

/-- The order of decision D7 reversed. -/
theorem test_refused_direction : setsDirectionFirst (.diro :: .dh :: muCtrl.drop 2) = false := by decide

/-! ### The micro-programs as R81 writes them out in full -/

theorem test_muNull : mu .null = [.diri, .cr, .cf, .cr, .cf, .cr, .cf, .cr, .cf, .cr, .cf, .cr, .cf, .cr, .cf, .cr, .cf,
    .cr, .cf, .cr, .cf, .cr, .cf, .cr, .cf, .endFrame] := by decide

theorem test_muCtrl : mu .ctrl = [.dh, .diro, .cr, .cf, .dl, .cr, .cf, .cr, .cf, .db 0, .cr, .cf, .db 1, .cr, .cf, .db 2, .cr,
    .cf, .db 3, .cr, .cf, .db 4, .cr, .cf, .db 5, .cr, .cf, .db 6, .cr, .cf, .db 7, .cr,
    .cf, .dl, .cr, .cf, .endFrame] := by decide

theorem test_muDout : mu .dout = [.dh, .diro, .cr, .cf, .cr, .cf, .dl, .cr, .cf, .db 0, .cr, .cf, .db 1, .cr, .cf, .db 2, .cr,
    .cf, .db 3, .cr, .cf, .db 4, .cr, .cf, .db 5, .cr, .cf, .db 6, .cr, .cf, .db 7, .cr,
    .cf, .dl, .cr, .cf, .endFrame] := by decide

theorem test_muDin : mu .din = [.dh, .diro, .cr, .cf, .cr, .cf, .diri, .cr, .cf, .cr, .sm 0, .cf, .cr, .sm 1, .cf, .cr, .sm 2,
    .cf, .cr, .sm 3, .cf, .cr, .sm 4, .cf, .cr, .sm 5, .cf, .cr, .sm 6, .cf, .cr, .sm 7,
    .cf, .cr, .cf, .endFrame] := by decide

/-! ### Line primitives, V1 to V22 -/

theorem test_data_level : (perform .dh (idleState low .input)).dout = high ∧ (perform .dh (idleState low .input)).dir = .input ∧
    (perform .dl (idleState high .output)).dout = low ∧ (perform .dl (idleState high .input)).dir = .input := by decide

theorem test_data_bit : (perform (.db 0) (midState .ctrl 0x41 9 .quiet)).dout = high ∧
    (perform (.db 1) (midState .ctrl 0x41 12 .quiet)).dout = low ∧
    (perform (.db 6) (midState .ctrl 0x41 27 .quiet)).dout = high ∧
    (perform (.db 7) (midState .ctrl 0x80 30 .quiet)).dout = high ∧
    (perform (.db 7) (midState .ctrl 0x7F 30 .quiet)).dout = low := by decide

theorem test_direction : (perform .diro (idleState high .input)).dir = .output ∧
    (perform .diri (idleState high .output)).dir = .input ∧ (perform .diri (idleState high .output)).dout = high := by decide

theorem test_clock : (perform .cr (midState .ctrl 0x41 7 .quiet)).clk = high ∧
    (perform .cr (midState .ctrl 0x41 7 .quiet)).cnt = 2 ∧ (perform .cf (midState .ctrl 0x41 8 .quiet)).clk = low ∧
    (perform .cf (midState .ctrl 0x41 8 .quiet)).cnt = 3 ∧ (perform .cf (midState .ctrl 0x41 35 .quiet)).cnt = 12 := by decide

theorem test_insert : insertBit 0x00 2 high = 0x04 ∧ insertBit 0xFF 2 low = 0xFB ∧ insertBit 0x3C 7 high = 0xBC ∧
    insertBit 0x00 0 low = 0x00 := by decide

/-- A sample takes what `env` answers to the history, whichever level that is. -/
theorem test_sample (h : Config.env [] = high) : (perform (.sm 2) (midState .din 0x00 16 .quiet)).sr = 0x04 := by
  show insertBit 0x00 2 (Config.env []) = 0x04
  rw [h]; decide

theorem test_end : (perform .endFrame (midState .din 0x3C 35 .quiet)).rxd = 0x3C ∧
    (perform .endFrame (midState .din 0x3C 35 .quiet)).busy = false ∧
    (perform .endFrame (midState .ctrl 0x41 36 .quiet)).rxd = 0x96 ∧
    (perform .endFrame (midState .null 0x77 25 .quiet)).rxd = 0x96 := by decide

/-! ### START, one instruction at a time (V30, V31, V32) and the step at reset -/

theorem test_start_ctrl : nextOr State.reset (exec (.ctrl 0x41) (idleState low .input)) =
    { idleState low .input with busy := true, opl := .ctrl, sr := 0x41, upc := 0, cnt := 0 } := by decide

theorem test_start_din : nextOr State.reset (exec (.din 0x12) (idleState low .output)) =
    { idleState low .output with busy := true, opl := .din, sr := 0x12, upc := 0, cnt := 0 } := by decide

theorem test_start_ignored : nextOr State.reset (exec (.dout 0xF0) (midState .ctrl 0x41 14 .quiet)) =
    midState .ctrl 0x41 14 .quiet := by decide

theorem test_start_null : (nextOr State.reset (exec (.null 0x77) State.reset)).sr = 0x77 ∧
    (nextOr State.reset (exec (.null 0x77) State.reset)).dir = .input := ⟨rfl, rfl⟩

/-- Each table row's word, placed for the first step after reset, is accepted by it. -/
theorem test_first_step_after_reset :
    step (State.reset.withFetchWord 16 0x041) = exec (.ctrl 0x41) State.reset ∧
    step (State.reset.withFetchWord 16 0x100) = exec (.null 0x00) State.reset ∧
    step (State.reset.withFetchWord 16 0x2A5) = exec (.dout 0xA5) State.reset ∧
    step (State.reset.withFetchWord 16 0x300) = exec (.din 0x00) State.reset := ⟨rfl, rfl, rfl, rfl⟩

/-! ### Reset and requests (V140 to V142, P4) -/

theorem test_reset_mid_frame :
    (nextOr (idleState low .input) (step (midState .dout 0xA5 14 resetPort))).busy = false ∧
    (nextOr (idleState low .input) (step (midState .dout 0xA5 14 resetPort))).opl = .null ∧
    (nextOr (idleState low .input) (step (midState .dout 0xA5 14 resetPort))).dir = .input ∧
    (nextOr (idleState low .input) (step (midState .dout 0xA5 14 resetPort))).clk = low ∧
    (nextOr (idleState low .input) (step (midState .dout 0xA5 14 resetPort))).hist = [.reset high] := ⟨rfl, rfl, rfl, rfl, rfl⟩

/-- The state of P4 where a `start` is lost: UPC 14, CNT 4, clock high, line low and driven. -/
theorem test_lost_start_state : (midState .dout 0xF0 14 .quiet).upc = 14 ∧ (midState .dout 0xF0 14 .quiet).cnt = 4 ∧
    (midState .dout 0xF0 14 .quiet).clk = high ∧ (midState .dout 0xF0 14 .quiet).dout = low ∧
    (midState .dout 0xF0 14 .quiet).dir = .output := by decide

theorem test_lost_start : nextOr State.reset (step (midState .dout 0xF0 14 (startPort (.ctrl 0x41)))) =
    nextOr State.reset (step (midState .dout 0xF0 14 .quiet)) := by decide

/-- `start` together with `rst` is not accepted (U6). -/
theorem test_start_with_reset :
    (nextOr State.reset (step { idleState low .output with inputs := [{ startPort (.ctrl 0x41) with rst := true }] })).busy =
      false := rfl

/-- With nothing presented an idle machine waits. -/
theorem test_idle_waits : nextOr State.reset (step (idleState high .input)) = idleState high .input := by decide

/-- The model's own fault, in a state no run reaches: UPC past the end of the micro-program. -/
theorem test_upcPastEnd : step { idleState low .input with busy := true, upc := 63 } = .fault .upcPastEnd := rfl

/-! ### Frames on the wire and the reference decoder (V66, V84, V104, V111, V130 to V136) -/

theorem test_wire_ctrl : wireOf (playCycles (cyclesOf (.ctrl 0x41) low) []).1.reverse =
    [.driven high, .driven low, .driven low, .driven high, .driven low, .driven low, .driven low, .driven low, .driven low,
      .driven high, .driven low, .driven low] := by decide

theorem test_wire_dout : drivenLevels (wireOf (playCycles (cyclesOf (.dout 0xA5) low) []).1.reverse) =
    some [high, high, low, high, low, high, low, low, high, low, high, low] := by decide

theorem test_wire_null : wireOf (playCycles (cyclesOf (.null 0x77) low) []).1.reverse = List.replicate 12 .undriven := by
  decide

/-- V104: levels 0 0 1 1 1 1 0 0 make 3C, least significant bit first. -/
theorem test_received_byte : byteOfBits [low, low, high, high, high, high, low, low] = 0x3C := by decide

theorem test_frameDecode :
    frameDecode [high, low, low, high, low, low, low, low, low, high, low, low] = .frame .control 0x41 ∧
    frameDecode [high, high, low, high, low, high, low, low, high, low, high, low] = .frame .data 0xA5 ∧
    frameDecode (List.replicate 12 low) = .noFrame ∧
    frameDecode [low, high, low, high, low, high, low, low, high, low, high, low] = .noFrame ∧
    frameDecode [high, low, high, high, low, low, low, low, low, high, low, high] = .frame .control 0x41 := by decide

/-! ### Witnesses: for each obligation with hypotheses, a state and operands that meet them all -/

/-- DecodeInvertsEncode. -/
theorem witness_wellFormed : Instr.wellFormed (.din 0xFF) = true := rfl

/-- EveryCommandWordIsOneInstruction: the two sides of the ten-bit bound. -/
theorem witness_ten_bits : (1023 < 1024) ∧ (1024 ≤ 1024) ∧ encode (.din 0xFF) = 0x3FF#10 := by decide

/-- OpFieldSelectsOperation, StartLatchesTheOperation, MicroProgramsRefineFrames, the four Completes, DinSamplesComeFromEnv,
BitOrderOnTheWire, WholeFramesOnly, DirectionSwitchPoint, LineModeAfterSecondCycle, BusyForExactlyTheFrame,
LineBetweenFrames, RoundTrip: an idle state whose host presents no reset (and a lost start) in the next 37 steps. -/
theorem witness_idle_no_reset :
    ({ idleState high .output with inputs := [startPort (.ctrl 0x41)] } : State).busy = false ∧
    NoReset 37 { idleState high .output with inputs := [startPort (.ctrl 0x41)] } ∧
    NoReset 36 { idleState high .output with inputs := [startPort (.ctrl 0x41)] } ∧
    NoReset 26 { idleState high .output with inputs := [startPort (.ctrl 0x41)] } ∧
    NoReset 7 { idleState high .output with inputs := [startPort (.ctrl 0x41)] } ∧
    NoReset (frameSteps (.din 0x00)) { idleState high .output with inputs := [startPort (.ctrl 0x41)] } := by decide

/-- OpFieldSelectsOperation: words of each side of the header clause and of the direction clause. -/
theorem witness_op_field : (decodeWord 0x041#10).opSel = .ctrl ∧ (decodeWord 0x1FF#10).opSel = .null ∧
    (decodeWord 0x2A5#10).opSel = .dout ∧ (decodeWord 0x300#10).opSel = .din := by decide

/-- ResetFromAnyState, PriorityOfRequests, ResetCutsFrameShort: a running frame under reset, the clock high before a fall,
high before a sample, and low. -/
theorem witness_reset : (midState .dout 0xA5 14 resetPort).port.rst = true ∧ (midState .dout 0xA5 14 resetPort).busy = true ∧
    (midState .dout 0xA5 14 resetPort).Inv ∧ (midState .dout 0xA5 14 resetPort).nextOp = some .cf ∧
    (midState .din 0x0C 19 resetPort).Inv ∧ (midState .din 0x0C 19 resetPort).nextOp = some (.sm 3) ∧
    (midState .din 0x0C 0 resetPort).Inv ∧ (midState .din 0x0C 0 resetPort).clk = low :=
  ⟨rfl, rfl, midState_inv _ _ _ _ (by decide), rfl, midState_inv _ _ _ _ (by decide), rfl, midState_inv _ _ _ _ (by decide),
    rfl⟩

/-- An idle state whose host presents nothing for `k` steps and then reset. -/
def resetAfter (k : Nat) : State :=
  { idleState low .input with inputs := List.replicate k PortIn.quiet ++ [resetPort] }

/-- ResetCutsFrameShort, second clause: a frame reset before its first step, in a high phase, and before its END. -/
theorem witness_reset_after : ∀ k ∈ [0, 14, 35], (resetAfter k).Inv ∧ (resetAfter k).busy = false ∧
    k < frameSteps (.din 0x00) ∧ NoReset k (resetAfter k) ∧ (resetAfter k).inputs[k]? = some resetPort ∧
    resetPort.rst = true := by
  intro k hk
  have hi : ∀ n, (resetAfter n).Inv := fun _ => ⟨rfl, Or.inr ⟨rfl, rfl⟩⟩
  fin_cases hk <;> exact ⟨hi _, by decide⟩

/-- R111: a DOUT reset with the clock high in cycle 5 has given the line four whole cycles and a rising edge. -/
theorem test_reset_cuts_line :
    edgesOf (nextOr State.reset (run 14 (nextOr State.reset (exec (.dout 0xA5) (resetAfter 14))))).hist.reverse =
      [high, low, high, low, high, low, high, low, high] ∧
    (nextOr State.reset (run 15 (nextOr State.reset (exec (.dout 0xA5) (resetAfter 14))))).hist.head? =
      some (.reset high) := by decide

/-- PriorityOfRequests, StepRunsDecodedInstruction, CodecStepRule, PortsIgnoredWhileBusy, AccessRights: the other cases. -/
theorem witness_requests :
    (midState .ctrl 0x41 5 (startPort (.din 0x12))).port.rst = false ∧ (midState .ctrl 0x41 5 (startPort (.din 0x12))).busy = true ∧
    ({ idleState low .input with inputs := [startPort (.din 0x12)] } : State).port.start = true ∧
    ({ idleState low .input with inputs := [startPort (.din 0x12)] } : State).port.rst = false ∧
    decode ((startPort (.din 0x12)).op ++ (startPort (.din 0x12)).wdata).toNat = .ok (.din 0x12) ∧
    decodeTableWord 16 0x312 = some (.din 0x12) ∧
    (idleState low .input).port.start = false ∧ (idleState low .input).port.rst = false ∧
    (startPort (.din 0x12)).rst = PortIn.quiet.rst := ⟨rfl, rfl, rfl, rfl, rfl, rfl, rfl, rfl, rfl⟩

/-- SetDataHigh, SetDataLow and its CTRL clause, SetDataToBit at its first and last bit. -/
theorem witness_level_primitives :
    (midState .din 0x00 0 .quiet).nextOp = some .dh ∧ (midState .ctrl 0x41 4 .quiet).nextOp = some .dl ∧
    (midState .ctrl 0x41 4 .quiet).upc = 4 ∧ (midState .ctrl 0x41 9 .quiet).nextOp = some (.db 0) ∧
    (midState .dout 0x41 30 .quiet).nextOp = some (.db 7) ∧ (midState .ctrl 0x41 4 .quiet).Inv ∧ (midState .din 0x00 0 .quiet).Inv ∧
    (midState .dout 0x41 30 .quiet).Inv ∧ (midState .ctrl 0x41 4 .quiet).port.rst = false :=
  ⟨rfl, rfl, rfl, rfl, rfl, midState_inv _ _ _ _ (by decide), midState_inv _ _ _ _ (by decide), midState_inv _ _ _ _ (by decide),
    rfl⟩

/-- SetDirectionOut, SetDirectionIn in both its places, DirectionSwitchPoint. -/
theorem witness_direction_primitives :
    (midState .ctrl 0x41 1 .quiet).nextOp = some .diro ∧ (midState .ctrl 0x41 1 .quiet).Inv ∧
    (midState .null 0x41 0 .quiet).nextOp = some .diri ∧ (midState .null 0x41 0 .quiet).Inv ∧
    (midState .din 0x41 6 .quiet).nextOp = some .diri ∧ (midState .din 0x41 6 .quiet).Inv ∧
    (midState .din 0x41 6 .quiet).opl = .din ∧ (midState .din 0x41 6 .quiet).dir = .output ∧
    (nextOr (midState .din 0x41 6 .quiet) (step (midState .din 0x41 6 .quiet))).dir = .input :=
  ⟨rfl, midState_inv _ _ _ _ (by decide), rfl, midState_inv _ _ _ _ (by decide), rfl, midState_inv _ _ _ _ (by decide), rfl, rfl, rfl⟩

/-- ClockEdges, SampleDataLine at its first and last bit, EndOfFrame, LineStillWhileClockHigh, ReceivedByteIsHeld. -/
theorem witness_clock_primitives :
    (midState .null 0x41 1 .quiet).nextOp = some .cr ∧ (midState .null 0x41 1 .quiet).Inv ∧
    (midState .null 0x41 24 .quiet).nextOp = some .cf ∧ (midState .null 0x41 24 .quiet).Inv ∧
    (midState .din 0x41 10 .quiet).nextOp = some (.sm 0) ∧ (midState .din 0x41 10 .quiet).Inv ∧
    (midState .din 0x41 31 .quiet).nextOp = some (.sm 7) ∧ (midState .din 0x41 31 .quiet).clk = high ∧
    (midState .din 0x41 35 .quiet).nextOp = some .endFrame ∧ (midState .din 0x41 35 .quiet).Inv :=
  ⟨rfl, midState_inv _ _ _ _ (by decide), rfl, midState_inv _ _ _ _ (by decide), rfl, midState_inv _ _ _ _ (by decide), rfl, rfl,
    rfl, midState_inv _ _ _ _ (by decide)⟩

/-- EveryStepKeepsInvariant, NoStepStops, LineStillWhileClockHigh, ReceivedByteIsHeld: a running frame's step goes to a next
state. WholeFramesOnly, second clause: an idle state with the invariant steps too. -/
theorem witness_step :
    (midState .ctrl 0x41 3 .quiet).Inv ∧ (midState .ctrl 0x41 3 .quiet).clk = high ∧ (∃ t, step (midState .ctrl 0x41 3 .quiet) = .next t) ∧
    (idleState high .input).Inv ∧ (∃ t, step (idleState high .input) = .next t) := by
  refine ⟨midState_inv _ _ _ _ (by decide), rfl, ⟨_, rfl⟩, ⟨rfl, Or.inr ⟨rfl, rfl⟩⟩, ⟨_, rfl⟩⟩

/-- ReceivedByteIsPresentedByte: a byte that `env` presents to a DIN from an idle state exists, whatever `env` is. -/
theorem witness_envPresents : ∃ v, EnvPresents 0x12 v (idleState low .input) := by
  refine ⟨byteOfBits (frameSamples (.din 0x12) (idleState low .input)), ?_⟩
  have h : ∀ v0 v1 v2 v3 v4 v5 v6 v7 : Level,
      [v0, v1, v2, v3, v4, v5, v6, v7] = bitsOfByte (byteOfBits [v0, v1, v2, v3, v4, v5, v6, v7]) := by decide
  exact h _ _ _ _ _ _ _ _

/-- OperationsRunInIssueOrder: an idle state with a script of an operation, a reset and an operation. -/
theorem witness_script : ({ idleState low .input with inputs := hostScript [.issue (.null 0x00), .reset, .issue (.ctrl 0x41)] } : State).busy =
    false ∧ (hostScript [.issue (.null 0x00), .reset, .issue (.ctrl 0x41)]).length = 27 + 1 + 38 := by decide

end Sys2Proof.Tests
end

section
/-! The state of R10: what its elements hold after reset. -/

namespace Sys2Proof.Proofs

/-- Settles O5: `State.reset` writes each element of R24's table out. RXD alone is free (`Config.rxdReset`), and the
statement has no clause for it. -/
theorem resetValues : Obligations.ResetValues := by
  unfold Obligations.ResetValues
  exact ⟨rfl, rfl, rfl, rfl, rfl, rfl, rfl, rfl⟩

end Sys2Proof.Proofs
end

section
/-! Facts about whole frames: the frame of an idle state as a fold of micro-operations, stretches of micro-operations
that make whole cycles on the line, and the number a list of levels makes. -/

namespace Sys2Proof.Proofs

open Sys2Proof.Machine

/-- The state START of operation `i` leaves of an idle state (R80). -/
def started (i : Instr) (s : State) : State :=
  { s with busy := true, opl := i.opSel, sr := i.wdata, upc := 0, cnt := 0 }

/-- START in an idle state is accepted. -/
theorem exec_idle {s : State} (hb : s.busy = false) (i : Instr) : exec i s = .next (started i s) := by
  rw [exec_eq_issue, State.issue_idle hb]
  rfl

/-- An operation issued in an idle state and not reset ends where its micro-program takes the state START leaves. -/
theorem transacts_foldl_mu {i : Instr} {s : State} (hb : s.busy = false) (hr : NoReset (frameSteps i) s) :
    Transacts i s ((mu i.opSel).foldl microStep (started i s)) := by
  have hrun := run_from_start (s := started i s) rfl rfl le_rfl hr
  rw [List.take_length] at hrun
  exact ⟨_, exec_idle hb i, hrun⟩

/-- A stretch of micro-operations leaves the direction it has set last, or the one it found (R18). -/
theorem foldl_microStep_dir (us : List MicroOp) (s : State) :
    (us.foldl microStep s).dir = (dirAfter us).getD s.dir := by
  induction us using List.reverseRecOn with
  | nil => rfl
  | append_singleton us u ih =>
    rw [List.foldl_append, dirAfter_snoc]
    cases u with
    | diro => rfl
    | diri => rfl
    | _ => exact ih

/-- No stretch of micro-operations changes OPL (R12). -/
theorem foldl_microStep_opl (us : List MicroOp) (s : State) : (us.foldl microStep s).opl = s.opl := by
  induction us generalizing s with
  | nil => rfl
  | cons u us ih => rw [List.foldl_cons, ih]; exact (perform_keeps u _).1

/-- The stretch `us`, performed from `s`, adds whole cycles to the line, which read `ws` whatever comes after them (R52). -/
def Draws (us : List MicroOp) (s : State) (ws : List WireSym) : Prop :=
  ∃ es, (us.foldl microStep s).hist = es.reverse ++ s.hist ∧ ∀ fs, wireOf (es ++ fs) = ws ++ wireOf fs

theorem Draws.append {us vs : List MicroOp} {s : State} {ws xs : List WireSym} (h : Draws us s ws)
    (h' : Draws vs (us.foldl microStep s) xs) : Draws (us ++ vs) s (ws ++ xs) := by
  obtain ⟨es, hhist, hwire⟩ := h
  obtain ⟨es', hhist', hwire'⟩ := h'
  refine ⟨es ++ es', by rw [List.foldl_append, hhist', hhist]; simp, fun fs => ?_⟩
  rw [List.append_assoc, hwire, hwire', List.append_assoc]

/-- A stretch that draws `ws`, with any stretch after it: the wire string of both begins with `ws`. -/
theorem Draws.exists_wireOf {us : List MicroOp} {s : State} {ws : List WireSym} (h : Draws us s ws)
    (vs : List MicroOp) :
    ∃ es xs, ((us ++ vs).foldl microStep s).hist = es.reverse ++ s.hist ∧ wireOf es = ws ++ xs := by
  obtain ⟨es, hhist, hwire⟩ := h
  obtain ⟨fs, hhist', -⟩ := foldl_microStep_line vs (us.foldl microStep s)
  exact ⟨es ++ fs, wireOf fs, by rw [List.foldl_append, hhist', hhist]; simp, hwire fs⟩

/-- `n` levels make a number of `n` bits. -/
theorem sumOfBits_lt (vs : List Level) : sumOfBits vs < 2 ^ vs.length := by
  induction vs with
  | nil => decide
  | cons v vs ih =>
    have hv := Bool.toNat_lt v
    rw [sumOfBits, List.length_cons, Nat.pow_succ]
    omega

/-- The number eight levels make fits the byte they make (R58). -/
theorem toNat_byteOfBits {vs : List Level} (h : vs.length = 8) : (byteOfBits vs).toNat = sumOfBits vs := by
  have hlt := sumOfBits_lt vs
  rw [h] at hlt
  rw [byteOfBits, BitVec.toNat_ofNat, Nat.mod_eq_of_lt hlt]

/-- The number made of `n` levels is the sum of the levels, each at its own power of two (R58). -/
theorem sumOfBits_ofFn {n : Nat} (v : Fin n → Level) :
    sumOfBits (List.ofFn v) = ∑ k : Fin n, (v k).toNat * 2 ^ k.val := by
  induction n with
  | zero => rfl
  | succ n ih =>
    rw [List.ofFn_succ, sumOfBits, ih, Fin.sum_univ_succ, Finset.mul_sum]
    simp [pow_succ, mul_comm, mul_left_comm]

end Sys2Proof.Proofs
end

section
/-! The three parts of a frame that has a header (R53, R55, R56): the header, which the first nine micro-operations make,
the eight data cycles, and cycle 12. -/

namespace Sys2Proof.Proofs

open Sys2Proof.Machine

/-- The header of CTRL, DOUT and DIN: cycle 1 driven high, cycle 2 driven at bit 1 of `op` (R51), cycle 3 driven low, or
not driven in DIN. -/
def headerWire (op : OpSel) : List WireSym :=
  [.driven high, .driven (op.code.getLsbD 1), if op = .din then .undriven else .driven low]

/-- Micro-operations 0 to 8 make the header and leave SR as START loaded it. -/
theorem draws_header {op : OpSel} (h : op ≠ .null) (s : State) :
    Draws ((mu op).take 9) s (headerWire op) ∧ (((mu op).take 9).foldl microStep s).sr = s.sr := by
  cases op with
  | ctrl =>
    refine ⟨⟨[.rise .output high, .fall .output high, .rise .output low, .fall .output low, .rise .output low,
      .fall .output low], ?_, ?_⟩, ?_⟩ <;> simp [mu, muCtrl, pulse, microStep, wireOf, headerWire, OpSel.code]
  | null => exact absurd rfl h
  | dout =>
    refine ⟨⟨[.rise .output high, .fall .output high, .rise .output high, .fall .output high, .rise .output low,
      .fall .output low], ?_, ?_⟩, ?_⟩ <;> simp [mu, muDout, pulse, microStep, wireOf, headerWire, OpSel.code]
  | din =>
    refine ⟨⟨[.rise .output high, .fall .output high, .rise .output high, .fall .output high, .rise .input high,
      .fall .input high], ?_, ?_⟩, ?_⟩ <;> simp [mu, muDin, pulse, microStep, wireOf, headerWire, OpSel.code]

/-- A data cycle of a driven frame puts the bit of SR with its index on the wire (R57, R72). -/
theorem draws_drivenCycle (i : Fin 8) {s : State} (hd : s.dir = .output) :
    Draws (.db i :: pulse) s [.driven (s.sr.getLsbD i.val)] := by
  rw [← bitOf_eq_getLsbD]
  exact ⟨[.rise .output (bitOf s.sr i), .fall .output (bitOf s.sr i)], by simp [pulse, microStep, hd], by simp [wireOf]⟩

/-- A data cycle of an input frame puts the level of the line after its rise on the wire, as a sample (R58, R77). -/
theorem draws_sampledCycle (i : Fin 8) {s : State} (hd : s.dir = .input) :
    Draws (pulseSampling i) s [.sampled s.clockRise.wire] := by
  refine ⟨[.rise .input s.dout, .sample s.clockRise.wire, .fall .input s.dout], ?_, by simp [wireOf]⟩
  simp [pulseSampling, microStep, hd, State.wire]

/-- Driven data cycles, for any bit indexes. -/
theorem draws_drivenData (is : List (Fin 8)) {s : State} (hd : s.dir = .output) :
    Draws (is.flatMap fun i => .db i :: pulse) s (is.map fun i => .driven (s.sr.getLsbD i.val)) := by
  induction is generalizing s with
  | nil => exact ⟨[], rfl, fun _ => rfl⟩
  | cons i is ih =>
    have hdir : ((.db i :: pulse).foldl microStep s).dir = .output := by simp [pulse, microStep, hd]
    have hsr : ((.db i :: pulse).foldl microStep s).sr = s.sr := by simp [pulse, microStep]
    have hrest := ih hdir
    rw [hsr] at hrest
    exact (draws_drivenCycle i hd).append hrest

/-- Sampled data cycles, for any bit indexes: each level they put on the wire also goes into SR, at the index of its
cycle. -/
theorem draws_sampledData (is : List (Fin 8)) {s : State} (hd : s.dir = .input) :
    ∃ vs : List Level, vs.length = is.length ∧ Draws (is.flatMap pulseSampling) s (vs.map .sampled) ∧
      ((is.flatMap pulseSampling).foldl microStep s).sr =
        (is.zip vs).foldl (fun b p => insertBit b p.1 p.2) s.sr := by
  induction is generalizing s with
  | nil => exact ⟨[], rfl, ⟨[], rfl, fun _ => rfl⟩, rfl⟩
  | cons i is ih =>
    have hdir : ((pulseSampling i).foldl microStep s).dir = .input := by simp [pulseSampling, microStep, hd]
    have hsr : ((pulseSampling i).foldl microStep s).sr = insertBit s.sr i s.clockRise.wire := by
      simp [pulseSampling, microStep, State.wire]
    obtain ⟨vs, hlen, hdraws, hfold⟩ := ih hdir
    refine ⟨s.clockRise.wire :: vs, congrArg Nat.succ hlen, (draws_sampledCycle i hd).append hdraws, ?_⟩
    rw [List.flatMap_cons, List.foldl_append, hfold, hsr, List.zip_cons_cons, List.foldl_cons]

/-- CTRL and DOUT, begun in any state, drive the bits of SR in wire order after their header (R53, R55). -/
theorem draws_driven_header_data {op : OpSel} (h : op = .ctrl ∨ op = .dout) (s : State) :
    Draws ((mu op).take 9 ++ drivenData) s
      (headerWire op ++ wireOrder.map fun i => .driven (s.sr.getLsbD i.val)) := by
  have hnull : op ≠ .null := by rcases h with rfl | rfl <;> decide
  have hout : dirAfter ((mu op).take 9) = some .output := by rcases h with rfl | rfl <;> decide
  obtain ⟨hheader, hsr⟩ := draws_header hnull s
  have hdata := draws_drivenData wireOrder (s := ((mu op).take 9).foldl microStep s)
    (by rw [foldl_microStep_dir, hout, Option.getD_some])
  rw [hsr] at hdata
  exact hheader.append hdata

/-- What is left of CTRL and DOUT after header and data. -/
theorem mu_driven_eq {op : OpSel} (h : op = .ctrl ∨ op = .dout) :
    mu op = (mu op).take 9 ++ drivenData ++ ([.dl] ++ pulse ++ [.endFrame]) := by
  rcases h with rfl | rfl <;> decide

theorem muDin_eq : muDin = muDin.take 9 ++ sampledData ++ (pulse ++ [.endFrame]) := by decide

/-- DIN, begun in any state, samples eight levels after its header, and has their byte in SR then (R56, R58). -/
theorem draws_din_header_data (s : State) :
    ∃ v : Fin 8 → Level, Draws (muDin.take 9 ++ sampledData) s (headerWire .din ++ (List.ofFn v).map .sampled) ∧
      ((muDin.take 9 ++ sampledData).foldl microStep s).sr = byteOfBits (List.ofFn v) := by
  have hin : dirAfter (muDin.take 9) = some .input := by decide
  obtain ⟨vs, hlen, hdata, hsr⟩ := draws_sampledData wireOrder (s := (muDin.take 9).foldl microStep s)
    (by rw [foldl_microStep_dir, hin, Option.getD_some])
  obtain ⟨v, rfl⟩ : ∃ v : Fin 8 → Level, List.ofFn v = vs :=
    ⟨_, (List.ofFn_congr hlen vs.get).symm.trans (List.ofFn_get vs)⟩
  refine ⟨v, (draws_header (op := .din) (by decide) s).1.append hdata, ?_⟩
  rw [List.foldl_append]
  exact hsr.trans (insertBit_all _ _ _ _ _ _ _ _ _)

/-- The last cycle and the END of DIN move SR to RXD and do not change it (R85, R86). -/
theorem foldl_din_tail_rxd {s : State} (h : s.opl = .din) :
    ((pulse ++ [MicroOp.endFrame]).foldl microStep s).rxd = s.sr := by
  simp [pulse, microStep, h]

/-- DIN ends with the byte of the levels it sampled in cycles 4 to 11 in RXD (R58, R85). -/
theorem exists_muDin_frame {s : State} (h : s.opl = .din) :
    ∃ es xs, ∃ v : Fin 8 → Level, (muDin.foldl microStep s).hist = es.reverse ++ s.hist ∧
      wireOf es = headerWire .din ++ (List.ofFn v).map .sampled ++ xs ∧
      (muDin.foldl microStep s).rxd = byteOfBits (List.ofFn v) := by
  obtain ⟨v, hdraws, hsr⟩ := draws_din_header_data s
  obtain ⟨es, xs, hhist, hwire⟩ := hdraws.exists_wireOf (pulse ++ [.endFrame])
  rw [muDin_eq]
  refine ⟨es, xs, v, hhist, hwire, ?_⟩
  rw [List.foldl_append, foldl_din_tail_rxd (by rw [foldl_microStep_opl, h]), hsr]

/-- Settles O34: the data cycles of a driven frame carry the bits of SR in wire order, and those of DIN the levels whose
byte END moves to RXD. -/
theorem bitOrderOnTheWire : Obligations.BitOrderOnTheWire := by
  unfold Obligations.BitOrderOnTheWire
  constructor
  · intro b s hb hr i hi
    have hop : i.opSel = .ctrl ∨ i.opSel = .dout := by rcases hi with rfl | rfl <;> simp [Instr.opSel]
    have hlen : frameSteps i = 37 := by rcases hi with rfl | rfl <;> rfl
    have hbyte : i.wdata = b := by rcases hi with rfl | rfl <;> rfl
    obtain ⟨es, xs, hhist, hwire⟩ :=
      (draws_driven_header_data hop (started i s)).exists_wireOf ([.dl] ++ pulse ++ [.endFrame])
    rw [← mu_driven_eq hop] at hhist
    refine ⟨_, es, transacts_foldl_mu hb (by rwa [hlen]), hhist, fun k => ?_⟩
    rw [hwire, ← hbyte]
    fin_cases k <;> rfl
  · intro w s hb hr
    obtain ⟨es, xs, v, hhist, hwire, hrxd⟩ := exists_muDin_frame (s := started (.din w) s) rfl
    refine ⟨_, es, v, transacts_foldl_mu hb hr, hhist, fun k => ?_, ?_⟩
    · rw [hwire]
      fin_cases k <;> rfl
    · exact (congrArg BitVec.toNat hrxd).trans
        ((toNat_byteOfBits (List.length_ofFn ..)).trans (sumOfBits_ofFn v))

end Sys2Proof.Proofs
end

section
/-! The `op` field: its mask, its codes, and the two things its bits say about a frame (R51). -/

namespace Sys2Proof.Proofs

open Sys2Proof.Machine

/-- The code of the operation a word selects is the word's `op` field. -/
theorem opSel_code_decodeWord (w : CommandWord) : (decodeWord w).opSel.code = w.op := by
  rw [decodeWord, Instr.opSel_ofParts, OpSel.code_ofCode]

/-- A bit of the `op` field is the bit of the word eight places up (R50). -/
theorem getLsbD_op (w : CommandWord) {k : Nat} (hk : k < 2) : w.op.getLsbD k = w.getLsbD (8 + k) := by
  simp [CommandWord.op, hk]

/-- The mask 0x300 keeps the `op` field and clears the byte. -/
theorem and_opMask (w : CommandWord) : w &&& 0x300#10 = w.op ++ 0#8 := by
  have hmask : (0x300#10 : CommandWord) = BitVec.allOnes 2 ++ 0#8 := by decide
  calc w &&& 0x300#10 = (w.op ++ w.wdata) &&& (BitVec.allOnes 2 ++ 0#8) := by rw [CommandWord.append_fields, hmask]
    _ = (w.op &&& BitVec.allOnes 2) ++ (w.wdata &&& 0#8) := BitVec.and_append
    _ = w.op ++ 0#8 := by rw [BitVec.and_allOnes, BitVec.and_zero]

/-- A word matches the row of an operation exactly when it decodes to that operation, with the word's byte. -/
theorem matches_iff_decodeWord (op : OpSel) (w : CommandWord) :
    w &&& 0x300#10 = op.code ++ 0#8 ↔ decodeWord w = Instr.ofParts op w.wdata := by
  constructor
  · intro h
    have hcode : w.op = op.code := by
      rw [and_opMask] at h
      simpa only [CommandWord.op_append] using congrArg CommandWord.op h
    rw [decodeWord, hcode, OpSel.ofCode_code]
  · intro h
    rw [and_opMask, ← opSel_code_decodeWord, h, Instr.opSel_ofParts]

/-- An operation ends with the line as input exactly when bit 0 of its code is set (R51, R88). -/
theorem dirAfter_mu (op : OpSel) :
    dirAfter (mu op) = some (if op.code.getLsbD 0 then .input else .output) := by
  cases op <;> decide

/-- The line an operation leaves, whatever the direction was before. -/
theorem foldl_mu_dir_eq_input_iff (op : OpSel) (s : State) :
    ((mu op).foldl microStep s).dir = .input ↔ op.code.getLsbD 0 = true := by
  rw [foldl_microStep_dir, dirAfter_mu]
  cases op.code.getLsbD 0 <;> simp

/-- Cycle 2 of a frame that has a header is driven at bit 1 of the operation's code (R51, R59). -/
theorem exists_mu_wireOf_cycle2 (op : OpSel) (s : State) :
    ∃ es, ((mu op).foldl microStep s).hist = es.reverse ++ s.hist ∧
      (op ≠ .null → (wireOf es)[1]? = some (.driven (op.code.getLsbD 1))) := by
  by_cases hnull : op = .null
  · obtain ⟨es, hhist, -⟩ := foldl_microStep_line (mu op) s
    exact ⟨es, hhist, fun h => absurd hnull h⟩
  · obtain ⟨es, xs, hhist, hwire⟩ := (draws_header hnull s).1.exists_wireOf ((mu op).drop 9)
    rw [List.take_append_drop] at hhist
    exact ⟨es, hhist, fun _ => by rw [hwire]; rfl⟩

/-- Settles O4: each row's match is its operation's code over eight zeros, and the two bits of the code are what the
header and the last direction change of the micro-program show. -/
theorem opFieldSelectsOperation : Obligations.OpFieldSelectsOperation := by
  unfold Obligations.OpFieldSelectsOperation
  constructor
  · intro w
    exact ⟨matches_iff_decodeWord .ctrl w, matches_iff_decodeWord .null w, matches_iff_decodeWord .dout w,
      matches_iff_decodeWord .din w⟩
  · intro w s hb hr
    obtain ⟨es, hhist, hwire⟩ := exists_mu_wireOf_cycle2 (decodeWord w).opSel (started (decodeWord w) s)
    have hdir := foldl_mu_dir_eq_input_iff (decodeWord w).opSel (started (decodeWord w) s)
    rw [opSel_code_decodeWord, getLsbD_op w (by decide)] at hwire hdir
    exact ⟨_, es, transacts_foldl_mu hb hr, hhist, hwire, hdir⟩

end Sys2Proof.Proofs
end

section
/-! The line primitives that change the data line's latch or direction: what the line shows after them, where the
micro-programs hold them, and what the running frame has made of the lines before them (R70 to R74). -/

namespace Sys2Proof.Proofs

open Sys2Proof.Machine

/-! ### What the data line shows after a write of the latch -/

/-- A step that writes the latch shows on the line if the codec drives it, and only then (R17, R38). -/
theorem wire_after_setDout (v : Level) (s : State) :
    (s.passInputs.setDout v).nextMicro.wire = if s.dir = .output then v else s.wire := by
  cases hd : s.dir with
  | output => exact State.wire_output hd
  | input => simp [State.wire, hd]

/-! ### The elements of a running frame, from the micro-operations already performed -/

theorem cnt_eq_of_performed {s : State} (hi : s.Inv) (hb : s.busy = true) {c : BitVec 4}
    (h : cyclesAfter s.performed = c.toNat) : s.cnt = c := by
  obtain ⟨-, -, hcnt, -, -⟩ := hi.midFrame hb
  exact BitVec.eq_of_toNat_eq (hcnt.trans h)

theorem dir_eq_of_performed {s : State} (hi : s.Inv) (hb : s.busy = true) {d : Dir}
    (h : dirAfter s.performed = some d) : s.dir = d := by
  obtain ⟨-, -, -, hdir, -⟩ := hi.midFrame hb
  exact hdir d h

theorem dout_eq_of_performed {s : State} (hi : s.Inv) (hb : s.busy = true) {v : Level}
    (h : doutAfter s.sr s.performed = some v) : s.dout = v := by
  obtain ⟨-, -, -, -, hdout⟩ := hi.midFrame hb
  exact hdout v h

/-- The clock is high in a running frame exactly when a fall or a sample is next (R40, R78). -/
theorem clk_eq_high_iff {s : State} (hi : s.Inv) (hb : s.busy = true) {u : MicroOp} (hu : s.nextOp = some u) :
    s.clk = high ↔ u = .cf ∨ ∃ i, u = .sm i := by
  obtain ⟨-, hclk, -, -, -⟩ := hi.midFrame hb
  rw [hclk]
  exact of_decide_eq_true <|
    nextOp_of_table (fun _ _ u p => decide (clkAfter p = high ↔ u = .cf ∨ ∃ i, u = .sm i))
      (fun op => by cases op <;> decide) hi hb hu

/-- Whatever is neither a fall nor a sample finds the clock low (R40, R78). -/
theorem clk_eq_low {s : State} (hi : s.Inv) (hb : s.busy = true) {u : MicroOp} (hu : s.nextOp = some u)
    (hcf : u ≠ .cf) (hsm : ∀ i, u ≠ .sm i) : s.clk = low :=
  Bool.eq_false_iff.mpr fun hhigh => ((clk_eq_high_iff hi hb hu).mp hhigh).elim hcf fun ⟨i, h⟩ => hsm i h

/-! ### Where the micro-programs hold the primitives -/

theorem lt_of_getElem?_mu {op : OpSel} {n : Nat} {u : MicroOp} (h : (mu op)[n]? = some u) : n < 37 :=
  lt_of_lt_of_le (List.getElem?_eq_some_iff.mp h).1 (length_mu_le op)

/-- `DB` stands in CTRL and DOUT only, where the line has been made an output before it (R72). -/
theorem driven_of_nextOp_db {s : State} (hi : s.Inv) (hb : s.busy = true) {i : Fin 8} (hu : s.nextOp = some (.db i)) :
    (s.opl = .ctrl ∨ s.opl = .dout) ∧ dirAfter s.performed = some .output :=
  of_decide_eq_true (nextOp_of_table
    (fun op _ u p => decide ((∃ i, u = .db i) → (op = .ctrl ∨ op = .dout) ∧ dirAfter p = some .output))
    (fun op => by cases op <;> decide) hi hb hu) ⟨i, rfl⟩

/-- `DIRO` is a second entry, and the first is then `DH` (R73). -/
theorem getElem?_mu_diro {op : OpSel} {n : Nat} (h : (mu op)[n]? = some .diro) : n = 1 ∧ (mu op)[0]? = some .dh := by
  have htable : ∀ op, ∀ n < 37, (mu op)[n]? = some .diro → n = 1 ∧ (mu op)[0]? = some .dh := by
    intro op; cases op <;> decide
  exact htable op n (lt_of_getElem?_mu h) h

/-- `DIRI` is entry 0 of NULL and entry 6 of DIN (R74). -/
theorem getElem?_mu_diri_iff (op : OpSel) (n : Nat) :
    (mu op)[n]? = some .diri ↔ (op = .null ∧ n = 0) ∨ (op = .din ∧ n = 6) := by
  have htable : ∀ op, ∀ n < 37, (mu op)[n]? = some .diri → (op = .null ∧ n = 0) ∨ (op = .din ∧ n = 6) := by
    intro op; cases op <;> decide
  constructor
  · intro h
    exact htable op n (lt_of_getElem?_mu h) h
  · rintro (⟨rfl, rfl⟩ | ⟨rfl, rfl⟩) <;> rfl

/-- Before `DIRO` a frame has performed `DH` and nothing else. -/
theorem performed_of_nextOp_diro {s : State} (hu : s.nextOp = some .diro) : s.performed = [.dh] := by
  obtain ⟨hn, hdh⟩ := getElem?_mu_diro hu
  rw [State.performed, hn, List.take_one, List.head?_eq_getElem?, hdh]
  rfl

/-- Before its `DIRI` a DIN has performed its first two cycles, driven high. -/
theorem performed_of_nextOp_diri_din {s : State} (hu : s.nextOp = some .diri) (ho : s.opl = .din) :
    s.performed = [.dh, .diro, .cr, .cf, .cr, .cf] := by
  have hn : s.upc.toNat = 6 := by simpa [ho] using (getElem?_mu_diri_iff s.opl s.upc.toNat).mp hu
  rw [State.performed, ho, hn]
  rfl

/-! ### The primitives -/

/-- Settles O13: the step is that of the next micro-operation, and a `DH` is no fall and no sample. -/
theorem setDataHigh : Obligations.SetDataHigh := by
  unfold Obligations.SetDataHigh
  refine ⟨?_, ?_, rfl, rfl, rfl⟩
  · intro s hr hb hu
    exact ⟨step_codec hr hb hu, wire_after_setDout high s⟩
  · intro s hi hb hu
    exact clk_eq_low hi hb hu (by simp) (by simp)

/-- Settles O14: as for `DH`; before micro-operation 4 a CTRL has driven the line high for one cycle. -/
theorem setDataLow : Obligations.SetDataLow := by
  unfold Obligations.SetDataLow
  refine ⟨?_, ?_, ?_⟩
  · intro s hr hb hu
    exact ⟨step_codec hr hb hu, wire_after_setDout low s⟩
  · intro s hi hb hu
    exact clk_eq_low hi hb hu (by simp) (by simp)
  · intro s hi hb ho hupc
    have hnext : s.nextOp = some .dl := by rw [State.nextOp, ho, hupc]; rfl
    have hp : s.performed = [.dh, .diro, .cr, .cf] := by rw [State.performed, ho, hupc]; rfl
    have hcnt : s.cnt = 1 := cnt_eq_of_performed hi hb (by rw [hp]; rfl)
    have hdir : s.dir = .output := dir_eq_of_performed hi hb (by rw [hp]; rfl)
    have hdout : s.dout = high := dout_eq_of_performed hi hb (by rw [hp]; rfl)
    exact ⟨hnext, hcnt, hdir, (State.wire_output hdir).trans hdout⟩

/-- Settles O15: the bit the latch takes is the bit of SR with that index, and the rest is the table's. -/
theorem setDataToBit : Obligations.SetDataToBit := by
  unfold Obligations.SetDataToBit
  refine ⟨?_, ?_, ?_⟩
  · intro s i hr hb hu
    rw [← bitOf_eq_getLsbD]
    exact step_codec hr hb hu
  · intro s i hi hb hu
    obtain ⟨hop, hdir⟩ := driven_of_nextOp_db hi hb hu
    exact ⟨hop, dir_eq_of_performed hi hb hdir, clk_eq_low hi hb hu (by simp) (by simp)⟩
  · intro op
    cases op <;> rfl

/-- Settles O16: `DIRO` finds the latch as the `DH` before it left it. -/
theorem setDirectionOut : Obligations.SetDirectionOut := by
  unfold Obligations.SetDirectionOut
  refine ⟨?_, ?_, ?_⟩
  · intro s hr hb hu
    exact ⟨step_codec hr hb hu, State.wire_output rfl⟩
  · intro op n h
    exact getElem?_mu_diro h
  · intro s hi hb hu
    have hdout : s.dout = high := dout_eq_of_performed hi hb (by rw [performed_of_nextOp_diro hu]; rfl)
    exact ⟨hdout, clk_eq_low hi hb hu (by simp) (by simp)⟩

/-- Settles O17: after `DIRI` the line shows what `env` answers, and a DIN comes to it with two driven cycles behind it. -/
theorem setDirectionIn : Obligations.SetDirectionIn := by
  unfold Obligations.SetDirectionIn
  refine ⟨?_, getElem?_mu_diri_iff, rfl, rfl, ?_⟩
  · intro s hr hb hu
    exact ⟨step_codec hr hb hu, State.wire_input rfl⟩
  · intro s hi hb hu
    refine ⟨clk_eq_low hi hb hu (by simp) (by simp), fun ho => ?_⟩
    have hp := performed_of_nextOp_diri_din hu ho
    exact ⟨cnt_eq_of_performed hi hb (by rw [hp]; rfl), dout_eq_of_performed hi hb (by rw [hp]; rfl),
      dir_eq_of_performed hi hb (by rw [hp]; rfl)⟩

end Sys2Proof.Proofs
end

section
/-! START and the step rule (R79, R80, R102). -/

namespace Sys2Proof.Proofs

open Sys2Proof.Machine

/-- The step of a running codec that is not reset reads nothing else from the port (R42, R102). -/
theorem step_busy {s : State} (hr : s.port.rst = false) (hb : s.busy = true) : step s = codecStep s.passInputs := by
  simp [step, nextTurn, hr, hb]

/-- An idle codec has no turn (R79). -/
theorem nextTurn_idle_ne_codec (p : PortIn) : nextTurn p false ≠ .codec := by
  rw [nextTurn]
  cases p.rst <;> cases p.start <;> simp

/-- Settles O10: START is `issue`, which tests BUSY, and the step of a busy codec reads `rst` only, which neither port
asserts. -/
theorem startLatchesTheOperation : Obligations.StartLatchesTheOperation := by
  unfold Obligations.StartLatchesTheOperation
  refine ⟨fun i s hb => exec_idle hb i, ?_, ?_⟩
  · intro i s hb
    rw [exec_eq_issue, State.issue_busy hb]
  · intro i s ps hb
    exact (step_busy (s := { s with inputs := startPort i :: ps }) rfl hb).trans
      (step_busy (s := { s with inputs := PortIn.quiet :: ps }) rfl hb).symm

end Sys2Proof.Proofs
end

section
/-! END (R86): where the micro-programs hold it, and what the running frame has made of CNT and the clock before it. -/

namespace Sys2Proof.Proofs

open Sys2Proof.Machine

/-- END closes every micro-program (R79, R86). -/
theorem mu_eq_dropLast_append (op : OpSel) : mu op = (mu op).dropLast ++ [.endFrame] := by
  cases op <;> decide

/-- END stands at the last index and at no other (R86). -/
theorem getElem?_mu_endFrame_iff (op : OpSel) (n : Nat) :
    (mu op)[n]? = some .endFrame ↔ n + 1 = (mu op).length := by
  have htable : ∀ op, ∀ n < 37, (mu op)[n]? = some .endFrame ↔ n + 1 = (mu op).length := by
    intro op; cases op <;> decide
  constructor
  · intro h
    exact (htable op n (lt_of_getElem?_mu h)).mp h
  · intro h
    exact (htable op n (h.trans_le (length_mu_le op))).mpr h

/-- Before END a frame has performed all the rest of its micro-program. -/
theorem performed_of_nextOp_endFrame {s : State} (hu : s.nextOp = some .endFrame) :
    s.performed = (mu s.opl).dropLast := by
  have hn := (getElem?_mu_endFrame_iff s.opl s.upc.toNat).mp hu
  rw [State.performed, List.dropLast_eq_take, ← hn, Nat.add_sub_cancel]

/-- The rest of a micro-program makes the twelve cycles of the frame (R5, R86). -/
theorem cyclesAfter_dropLast_mu (op : OpSel) : cyclesAfter (mu op).dropLast = 12 := by
  cases op <;> rfl

/-- Settles O20: END is no fall and no sample, so it finds the clock low, and CNT counts the falls before it. -/
theorem endOfFrame : Obligations.EndOfFrame := by
  unfold Obligations.EndOfFrame
  refine ⟨?_, getElem?_mu_endFrame_iff, ?_, ?_⟩
  · intro s hr hb hu
    exact step_codec hr hb hu
  · intro s hi hb hu
    have hcycles : cyclesAfter s.performed = 12 := by
      rw [performed_of_nextOp_endFrame hu, cyclesAfter_dropLast_mu]
    exact ⟨cnt_eq_of_performed hi hb hcycles, clk_eq_low hi hb hu (by simp) (by simp)⟩
  · intro s hb
    rw [hb]
    exact nextTurn_idle_ne_codec s.port

end Sys2Proof.Proofs
end

section
/-! What a whole micro-program leaves of the state it found (R82 to R86), and what a stretch without a sample leaves
alone. -/

namespace Sys2Proof.Proofs

open Sys2Proof.Machine

/-- Only END writes RXD (R19, R25). -/
theorem foldl_microStep_rxd {us : List MicroOp} (h : ∀ u ∈ us, u ≠ .endFrame) (s : State) :
    (us.foldl microStep s).rxd = s.rxd := by
  induction us generalizing s with
  | nil => rfl
  | cons u us ih =>
    rw [List.foldl_cons, ih fun w hw => h w (List.mem_cons_of_mem _ hw)]
    cases u with
    | endFrame => exact absurd rfl (h _ List.mem_cons_self)
    | _ => rfl

/-- A whole micro-program is its rest, and then END. -/
theorem foldl_mu_eq_microStep_endFrame (op : OpSel) (s : State) :
    (mu op).foldl microStep s = microStep ((mu op).dropLast.foldl microStep s) .endFrame := by
  conv_lhs => rw [mu_eq_dropLast_append, List.foldl_concat]

/-- What every frame leaves, apart from the latch, SR and its events: a DIN has the SR it ends with in RXD, the others keep
RXD (R82 to R86). -/
theorem eq_of_foldl_mu {s u : State} (h : (mu s.opl).foldl microStep s = u) :
    u = { s with
      busy := false, sr := u.sr, upc := s.upc + BitVec.ofNat 6 (mu s.opl).length, cnt := s.cnt + 12, clk := low
      dout := u.dout, dir := (dirAfter (mu s.opl)).getD s.dir, rxd := if s.opl = .din then u.sr else s.rxd
      hist := u.hist, inputs := s.inputs.drop (mu s.opl).length } := by
  obtain ⟨-, -, -, hclk, hcnt⟩ := foldl_microStep_line (mu s.opl) s
  obtain ⟨hinputs, hupc⟩ := foldl_microStep_inputs_upc (mu s.opl) s
  have hopl := foldl_microStep_opl (mu s.opl) s
  have hdir := foldl_microStep_dir (mu s.opl) s
  have hlow : (mu s.opl).foldl (fun c u => (clockEdge u).getD c) s.clk = low := by cases s.opl <;> rfl
  have htwelve : cyclesAfter (mu s.opl) = 12 := by cases s.opl <;> rfl
  have hend := h.symm.trans (foldl_mu_eq_microStep_endFrame s.opl s)
  have hbusy : u.busy = false := by rw [hend]; rfl
  have hrxd : u.rxd = if s.opl = .din then u.sr else s.rxd := by
    simp [hend, microStep, foldl_microStep_opl, foldl_microStep_rxd (endFrame_not_mem_dropLast s.opl)]
  rw [h] at hclk hcnt hinputs hupc hopl hdir
  rw [hlow] at hclk
  rw [htwelve] at hcnt
  cases u
  simp_all

/-! ### Stretches without a sample -/

/-- Only a sample writes SR (R13, R25). -/
theorem foldl_microStep_sr {us : List MicroOp} (h : ∀ i, .sm i ∉ us) (s : State) :
    (us.foldl microStep s).sr = s.sr := by
  induction us generalizing s with
  | nil => rfl
  | cons u us ih =>
    rw [List.foldl_cons, ih fun i hi => h i (List.mem_cons_of_mem _ hi)]
    cases u with
    | sm i => exact absurd List.mem_cons_self (h i)
    | _ => rfl

/-- A stretch without a sample leaves the latch at the level it has set last, or the one it found (R17). -/
theorem foldl_microStep_dout {us : List MicroOp} (h : ∀ i, .sm i ∉ us) (s : State) :
    (us.foldl microStep s).dout = (doutAfter s.sr us).getD s.dout := by
  induction us using List.reverseRecOn with
  | nil => rfl
  | append_singleton us u ih =>
    have hus : ∀ i, .sm i ∉ us := fun i hi => h i (List.mem_append_left _ hi)
    rw [List.foldl_append, doutAfter_snoc]
    cases u with
    | dh => rfl
    | dl => rfl
    | db i => exact congrArg (bitOf · i) (foldl_microStep_sr hus s)
    | _ => exact ih hus

/-- A stretch without a sample adds no sampled level to the history. -/
theorem samplesOf_foldl_microStep_hist {us : List MicroOp} (h : ∀ i, .sm i ∉ us) (s : State) :
    samplesOf (us.foldl microStep s).hist = samplesOf s.hist := by
  induction us generalizing s with
  | nil => rfl
  | cons u us ih =>
    rw [List.foldl_cons, ih fun i hi => h i (List.mem_cons_of_mem _ hi)]
    cases u with
    | sm i => exact absurd List.mem_cons_self (h i)
    | _ => rfl

/-- The events that a stretch without a sample adds hold no sample. -/
theorem samplesOf_eq_nil_of_hist {us : List MicroOp} (h : ∀ i, .sm i ∉ us) {s : State} {es : List LineEvent}
    (hhist : (us.foldl microStep s).hist = es.reverse ++ s.hist) : samplesOf es = [] := by
  have hkept := samplesOf_foldl_microStep_hist h s
  rw [hhist, samplesOf, List.filterMap_append, List.filterMap_reverse] at hkept
  exact List.reverse_eq_nil_iff.mp (List.append_left_eq_self.mp hkept)

/-- Only DIN samples (R77). -/
theorem sm_not_mem_mu {op : OpSel} (h : op ≠ .din) (i : Fin 8) : .sm i ∉ mu op := by
  revert i
  cases op with
  | din => exact absurd rfl h
  | _ => decide

/-- An operation that samples nothing, issued in an idle state and not reset, is accepted and run to its END; its
micro-program alone says where it leaves the latch and the direction, and SR still holds the byte START loaded. -/
theorem unsampled_completes {i : Instr} {s : State} {ws : List WireSym} (hi : i.opSel ≠ .din) (hb : s.busy = false)
    (hr : NoReset (frameSteps i) s) (hdraws : Draws (mu i.opSel) (started i s) ws) :
    ∃ t u es, exec i s = .next t ∧ t.busy = true ∧ run (frameSteps i) t = .next u ∧
      u = { s with
        busy := false, opl := i.opSel, sr := i.wdata, upc := BitVec.ofNat 6 (frameSteps i), cnt := 12, clk := low
        dout := (doutAfter i.wdata (mu i.opSel)).getD s.dout, dir := (dirAfter (mu i.opSel)).getD s.dir
        hist := es.reverse ++ s.hist, inputs := s.inputs.drop (frameSteps i) } ∧
      samplesOf es = [] ∧ wireOf es = ws := by
  obtain ⟨es, hhist, hwire⟩ := hdraws
  obtain ⟨t, hexec, hrun⟩ := transacts_foldl_mu hb hr
  obtain rfl : t = started i s := Host.Outcome.next.inj (hexec.symm.trans (exec_idle hb i))
  have hsr := foldl_microStep_sr (sm_not_mem_mu hi) (started i s)
  have hdout := foldl_microStep_dout (sm_not_mem_mu hi) (started i s)
  have hframe := eq_of_foldl_mu (s := started i s) rfl
  refine ⟨_, _, es, hexec, rfl, hrun, ?_, samplesOf_eq_nil_of_hist (sm_not_mem_mu hi) hhist, ?_⟩
  · rw [show (started i s).opl = i.opSel from rfl, hsr, hdout, hhist, if_neg hi] at hframe
    simpa [started, frameSteps] using hframe
  · simpa [wireOf] using hwire []

end Sys2Proof.Proofs
end

section
/-! The frames without a sample: CTRL and DOUT drive all their twelve cycles, NULL drives none (R82 to R84). -/

namespace Sys2Proof.Proofs

open Sys2Proof.Machine

/-- END puts nothing on the line. -/
theorem draws_endFrame (s : State) : Draws [.endFrame] s [] := ⟨[], rfl, fun _ => rfl⟩

/-- A pulse with the line an input is an undriven cycle (R78). -/
theorem draws_undrivenCycle {s : State} (hd : s.dir = .input) : Draws pulse s [.undriven] :=
  ⟨[.rise .input s.dout, .fall .input s.dout], by simp [pulse, microStep, hd], by simp [wireOf]⟩

/-- Any number of pulses with the line an input. -/
theorem draws_undrivenCycles (n : Nat) {s : State} (hd : s.dir = .input) :
    Draws (List.replicate n pulse).flatten s (List.replicate n .undriven) := by
  induction n generalizing s with
  | zero => exact ⟨[], rfl, fun _ => rfl⟩
  | succ n ih =>
    have hdir : (pulse.foldl microStep s).dir = .input := by simp [pulse, microStep, hd]
    exact (draws_undrivenCycle hd).append (ih hdir)

/-- NULL, begun in any state, makes twelve undriven cycles (R54, R82). -/
theorem draws_muNull (s : State) : Draws muNull s (List.replicate 12 .undriven) := by
  have hdiri : Draws [.diri] s [] := ⟨[], rfl, fun _ => rfl⟩
  have hcycles := draws_undrivenCycles 12 (s := [MicroOp.diri].foldl microStep s) rfl
  simpa [muNull] using (hdiri.append hcycles).append (draws_endFrame _)

/-- Cycle 12 of a driven frame is driven low (R53, R55). -/
theorem draws_drivenLowCycle {s : State} (hd : s.dir = .output) : Draws ([.dl] ++ pulse) s [.driven low] :=
  ⟨[.rise .output low, .fall .output low], by simp [pulse, microStep, hd], by simp [wireOf]⟩

/-- CTRL and DOUT, begun in any state, drive header, the bits of SR and a low cycle (R53, R55). -/
theorem draws_mu_driven {op : OpSel} (h : op = .ctrl ∨ op = .dout) (s : State) :
    Draws (mu op) s
      (headerWire op ++ (wireOrder.map fun i => .driven (s.sr.getLsbD i.val)) ++ [.driven low]) := by
  have hout : dirAfter ((mu op).take 9 ++ drivenData) = some .output := by rcases h with rfl | rfl <;> decide
  have hlow := draws_drivenLowCycle (s := ((mu op).take 9 ++ drivenData).foldl microStep s)
    (by rw [foldl_microStep_dir, hout, Option.getD_some])
  rw [mu_driven_eq h]
  simpa using (draws_driven_header_data h s).append (hlow.append (draws_endFrame _))

/-- Settles O29: the frame of CTRL is driven throughout and samples nothing; the rest is read off its micro-program. -/
theorem ctrlCompletes : Obligations.CtrlCompletes := by
  unfold Obligations.CtrlCompletes
  intro b s hb hr
  exact ⟨rfl, unsampled_completes (i := .ctrl b) (by simp [Instr.opSel]) hb hr (draws_mu_driven (.inl rfl) _)⟩

/-- Settles O30: after its `DIRI` the micro-program of NULL only pulses the clock, and no entry of it sets the latch. -/
theorem nullCompletes : Obligations.NullCompletes := by
  unfold Obligations.NullCompletes
  intro w s hb hr
  exact ⟨rfl, unsampled_completes (i := .null w) (by simp [Instr.opSel]) hb hr (draws_muNull _)⟩

/-- Settles O31: as for CTRL, with the header of an output data frame. -/
theorem doutCompletes : Obligations.DoutCompletes := by
  unfold Obligations.DoutCompletes
  intro b s hb hr
  exact ⟨rfl, unsampled_completes (i := .dout b) (by simp [Instr.opSel]) hb hr (draws_mu_driven (.inr rfl) _)⟩

end Sys2Proof.Proofs
end

section
/-! Reset (R110). -/

namespace Sys2Proof.Proofs

open Sys2Proof.Machine

/-- A step in which the host asserts `rst` is a reset, whatever else it asserts (R102). -/
theorem step_reset {s : State} (hr : s.port.rst = true) : step s = .next s.passInputs.takeReset := by
  simp [step, nextTurn, hr]

/-- Settles O6: the step is `takeReset`, which writes every element, and the state it leaves is idle, so that a START is
accepted in it. -/
theorem resetFromAnyState : Obligations.ResetFromAnyState := by
  unfold Obligations.ResetFromAnyState
  intro s hr
  refine ⟨_, step_reset hr, rfl, rfl, rfl, rfl, rfl, rfl, rfl, rfl, rfl, rfl, fun i => ?_⟩
  exact ⟨_, exec_idle (State.takeReset_busy _) i, rfl, rfl⟩

end Sys2Proof.Proofs
end

section
/-! Whole frames: every micro-program makes twelve cycles on the line, and an idle codec makes no edge (R114). -/

namespace Sys2Proof.Proofs

open Sys2Proof.Machine

/-- DIN, begun in any state, samples eight cycles after its header and ends with an undriven cycle (R56, R85). -/
theorem exists_draws_muDin (s : State) :
    ∃ v : Fin 8 → Level, Draws muDin s (headerWire .din ++ (List.ofFn v).map .sampled ++ [.undriven]) := by
  have hin : dirAfter (muDin.take 9 ++ sampledData) = some .input := by decide
  obtain ⟨v, hdata, -⟩ := draws_din_header_data s
  have hlast := draws_undrivenCycle (s := (muDin.take 9 ++ sampledData).foldl microStep s)
    (by rw [foldl_microStep_dir, hin, Option.getD_some])
  rw [muDin_eq]
  exact ⟨v, by simpa using hdata.append (hlast.append (draws_endFrame _))⟩

/-- Every micro-program, begun in any state, makes twelve cycles on the wire (R52). -/
theorem exists_draws_mu (op : OpSel) (s : State) : ∃ ws, ws.length = 12 ∧ Draws (mu op) s ws := by
  cases op with
  | ctrl => exact ⟨_, rfl, draws_mu_driven (.inl rfl) s⟩
  | null => exact ⟨_, rfl, draws_muNull s⟩
  | dout => exact ⟨_, rfl, draws_mu_driven (.inr rfl) s⟩
  | din =>
    obtain ⟨v, hdraws⟩ := exists_draws_muDin s
    exact ⟨_, rfl, hdraws⟩

/-- The clock edges of every micro-program are twelve pulses (R78, R114). -/
theorem filterMap_clockEdge_mu (op : OpSel) :
    (mu op).filterMap clockEdge = (List.replicate 12 [high, low]).flatten := by
  cases op <;> rfl

/-- Every micro-program makes twelve cycles (R5, R114). -/
theorem cyclesAfter_mu (op : OpSel) : cyclesAfter (mu op) = 12 := by
  cases op <;> rfl

/-- A step of an idle codec makes no clock edge: a reset finds the clock low and leaves it low (R111, R114). -/
theorem step_idle_line {s t : State} (hi : s.Inv) (hb : s.busy = false) (h : step s = .next t) :
    t.clk = s.clk ∧ edgesOf t.hist = edgesOf s.hist := by
  obtain ⟨-, rfl⟩ | ⟨-, hbusy, -⟩ | ⟨-, -, -, i, -, rfl⟩ | ⟨-, -, -, rfl⟩ := step_cases h
  · obtain ⟨hclk, -⟩ := hi.betweenFrames hb
    exact ⟨hclk.symm, rfl⟩
  · simp [hb] at hbusy
  · rw [State.issue_idle (s := s.passInputs) hb]
    exact ⟨rfl, rfl⟩
  · exact ⟨rfl, rfl⟩

/-- Settles O35: the edges and the cycle count of a frame are its micro-program's, whose cycles are all on the wire; an
idle codec makes no edge. -/
theorem wholeFramesOnly : Obligations.WholeFramesOnly := by
  unfold Obligations.WholeFramesOnly
  refine ⟨fun i s hb hr => ?_, fun s t => step_idle_line⟩
  obtain ⟨ws, hlen, es, hhist, hwire⟩ := exists_draws_mu i.opSel (started i s)
  obtain ⟨fs, hhist', hedges, -, hcnt⟩ := foldl_microStep_line (mu i.opSel) (started i s)
  obtain rfl : es = fs := List.reverse_injective (List.append_cancel_right (hhist.symm.trans hhist'))
  refine ⟨_, es, transacts_foldl_mu hb hr, hhist, ?_, ?_, ?_⟩
  · rw [hedges, filterMap_clockEdge_mu]
  · have hall : wireOf es = ws := by simpa [wireOf] using hwire []
    rw [hall, hlen]
  · rw [hcnt, cyclesAfter_mu]
    rfl

end Sys2Proof.Proofs
end

section
/-! The direction of the line in a DIN, at the switch and at every clock edge, and where the DIN samples (R115). -/

namespace Sys2Proof.Proofs

open Sys2Proof.Machine

/-- Only `DIRI` turns the line from output to input (R18, R25). -/
theorem eq_diri_of_dir_microStep {s : State} {u : MicroOp} (hout : s.dir = .output)
    (hin : (microStep s u).dir = .input) : u = .diri := by
  cases u with
  | diri => rfl
  | diro => cases hin
  | _ => exact absurd (hout.symm.trans hin) (by decide)

/-- Before its sample `i` a frame has completed `3 + i` cycles (R77). -/
theorem cyclesAfter_of_nextOp_sm {s : State} (hi : s.Inv) (hb : s.busy = true) {i : Fin 8}
    (hu : s.nextOp = some (.sm i)) : cyclesAfter s.performed + 1 = 4 + i.val :=
  of_decide_eq_true (nextOp_of_table (fun _ _ u p => decide (∀ i, u = .sm i → cyclesAfter p + 1 = 4 + i.val))
    (fun op => by cases op <;> decide) hi hb hu) i rfl

/-! ### The line at the clock edges -/

/-- The micro-operation sets neither the latch nor the direction (R17, R18, R25). -/
def keepsLine : MicroOp → Bool
  | .cr | .cf | .sm _ | .endFrame => true
  | .dh | .dl | .db _ | .diro | .diri => false

/-- A micro-operation that sets neither latch nor direction leaves both, and its clock edge, if it makes one, shows
them. -/
theorem microStep_keepsLine {u : MicroOp} (h : keepsLine u = true) (s : State) :
    (microStep s u).dir = s.dir ∧ (microStep s u).dout = s.dout ∧
      lineAtEdges (microStep s u).hist =
        List.replicate (clockEdge u).toList.length (s.dir, s.dout) ++ lineAtEdges s.hist := by
  cases u with
  | cr | cf | sm _ | endFrame => exact ⟨rfl, rfl, rfl⟩
  | dh | dl | db _ | diro | diri => cases h

/-- A stretch that sets neither latch nor direction leaves both, and shows them at each of its clock edges. -/
theorem foldl_microStep_keepsLine {us : List MicroOp} (h : us.all keepsLine = true) (s : State) :
    (us.foldl microStep s).dir = s.dir ∧ (us.foldl microStep s).dout = s.dout ∧
      lineAtEdges (us.foldl microStep s).hist =
        List.replicate (us.filterMap clockEdge).length (s.dir, s.dout) ++ lineAtEdges s.hist := by
  induction us generalizing s with
  | nil => exact ⟨rfl, rfl, rfl⟩
  | cons u us ih =>
    rw [List.all_cons, Bool.and_eq_true] at h
    obtain ⟨hu, hus⟩ := h
    obtain ⟨hdir, hdout, hline⟩ := microStep_keepsLine hu s
    obtain ⟨hdir', hdout', hline'⟩ := ih hus (microStep s u)
    have hcount : ((u :: us).filterMap clockEdge).length =
        (us.filterMap clockEdge).length + (clockEdge u).toList.length := by
      cases hc : clockEdge u <;> simp [hc]
    refine ⟨hdir'.trans hdir, hdout'.trans hdout, ?_⟩
    rw [List.foldl_cons, hline', hdir, hdout, hline, hcount, List.replicate_add, List.append_assoc]

/-- Up to its `DIRI` a DIN makes four edges, with the line driven high, and leaves the line an input and the latch high
(R56, R81). -/
theorem foldl_muDin_take_seven (s : State) :
    ((muDin.take 7).foldl microStep s).dir = .input ∧ ((muDin.take 7).foldl microStep s).dout = high ∧
      lineAtEdges ((muDin.take 7).foldl microStep s).hist =
        List.replicate 4 (.output, high) ++ lineAtEdges s.hist := ⟨rfl, rfl, rfl⟩

/-- The events a DIN adds to the history, from any state: four edges of a line driven high, then twenty of a line that is
not driven, the latch still high (R56, R115). -/
theorem lineAtEdges_of_muDin_hist {s : State} {es : List LineEvent}
    (hhist : (muDin.foldl microStep s).hist = es.reverse ++ s.hist) :
    lineAtEdges es = List.replicate 4 (.output, high) ++ List.replicate 20 (.input, high) := by
  have hkeeps : (muDin.drop 7).all keepsLine = true := by decide
  have htwenty : ((muDin.drop 7).filterMap clockEdge).length = 20 := rfl
  obtain ⟨hdir, hdout, hfirst⟩ := foldl_muDin_take_seven s
  obtain ⟨-, -, hrest⟩ := foldl_microStep_keepsLine hkeeps ((muDin.take 7).foldl microStep s)
  rw [← List.foldl_append, List.take_append_drop, hhist, hfirst, hdir, hdout, htwenty, lineAtEdges,
    List.filterMap_append, List.filterMap_reverse, ← List.append_assoc] at hrest
  exact List.reverse_injective (List.append_cancel_right hrest)

/-- Settles O36: the step that turns the line is the `DIRI` at entry 6, and two driven cycles come before it; the rest of
the frame is not driven, and its samples stand where the micro-program has them. -/
theorem directionSwitchPoint : Obligations.DirectionSwitchPoint := by
  unfold Obligations.DirectionSwitchPoint
  refine ⟨?_, ?_, ?_, rfl⟩
  · intro s t hi hb ho hr hstep hout hin
    obtain ⟨u, hu⟩ := hi.exists_nextOp hb
    obtain rfl : microStep s u = t := Host.Outcome.next.inj ((step_codec hr hb hu).symm.trans hstep)
    obtain rfl := eq_diri_of_dir_microStep hout hin
    have hn : s.upc.toNat = 6 := by simpa [ho] using (getElem?_mu_diri_iff s.opl s.upc.toNat).mp hu
    have hcnt : s.cnt = 2 := cnt_eq_of_performed hi hb (by rw [performed_of_nextOp_diri_din hu ho]; rfl)
    rw [hn]
    exact ⟨clk_eq_low hi hb hu (by simp) (by simp), hcnt, rfl, rfl⟩
  · intro w s hb hr
    obtain ⟨es, hhist, -⟩ := foldl_microStep_line muDin (started (.din w) s)
    exact ⟨_, es, transacts_foldl_mu hb hr, hhist, lineAtEdges_of_muDin_hist hhist⟩
  · intro s i hi hb hu
    obtain ⟨-, -, hcnt, -, -⟩ := hi.midFrame hb
    rw [hcnt]
    exact ⟨(clk_eq_high_iff hi hb hu).mpr (.inr ⟨i, rfl⟩), cyclesAfter_of_nextOp_sm hi hb hu⟩

end Sys2Proof.Proofs
end

section
/-! The invariant: how one more micro-operation moves each element of a running frame along, and that every step keeps the
invariant (R79, R88). -/

namespace Sys2Proof.Proofs

open Sys2Proof.Machine

/-! ### UPC and the micro-operations performed -/

/-- UPC does not wrap in a micro-operation of a frame (R14). -/
theorem upc_microStep {s : State} {u : MicroOp} (hu : s.nextOp = some u) :
    (microStep s u).upc.toNat = s.upc.toNat + 1 := by
  have hlt := lt_of_getElem?_mu hu
  simp only [microStep, State.nextMicro_upc, (perform_keeps u _).2.1, State.passInputs_upc]
  rw [BitVec.toNat_add, show (1 : BitVec 6).toNat = 1 from rfl]
  omega

theorem opl_microStep (s : State) (u : MicroOp) : (microStep s u).opl = s.opl := (perform_keeps u _).1

/-- After its next micro-operation a frame has performed that one too. -/
theorem performed_microStep {s : State} {u : MicroOp} (hu : s.nextOp = some u) :
    (microStep s u).performed = s.performed ++ [u] := by
  rw [State.performed, upc_microStep hu, opl_microStep, List.take_add_one, ← State.nextOp, hu]
  rfl

/-- A micro-operation that is not END leaves UPC inside the micro-program (R79, R86). -/
theorem upc_microStep_lt {s : State} {u : MicroOp} (hu : s.nextOp = some u) (hne : u ≠ .endFrame) :
    (microStep s u).upc.toNat < (mu s.opl).length := by
  rw [upc_microStep hu]
  refine lt_of_le_of_ne (List.getElem?_eq_some_iff.mp hu).1 fun hlast => hne ?_
  have hend := (getElem?_mu_endFrame_iff s.opl s.upc.toNat).mpr hlast
  exact Option.some.inj (hu.symm.trans hend)

/-! ### Clock, cycle count, direction and latch -/

/-- A fall finds at most eleven cycles completed (R76). -/
theorem cyclesAfter_le_of_nextOp_cf {s : State} (hi : s.Inv) (hb : s.busy = true) (hu : s.nextOp = some .cf) :
    cyclesAfter s.performed ≤ 11 :=
  of_decide_eq_true (nextOp_of_table (fun _ _ u p => decide (u = .cf → cyclesAfter p ≤ 11))
    (fun op => by cases op <;> decide) hi hb hu) rfl

/-- Before a sample no entry of the frame has put a bit of SR on the latch (R72, R77). -/
theorem db_not_mem_of_nextOp_sm {s : State} (hi : s.Inv) (hb : s.busy = true) {i : Fin 8}
    (hu : s.nextOp = some (.sm i)) (j : Fin 8) : .db j ∉ s.performed :=
  of_decide_eq_true (nextOp_of_table (fun _ _ u p => decide ((∃ i, u = .sm i) → ∀ j, .db j ∉ p))
    (fun op => by cases op <;> decide) hi hb hu) ⟨i, rfl⟩ j

/-- The latch level of a stretch without `DB` does not depend on the byte in SR (R17). -/
theorem doutAfter_eq_of_db_not_mem {p : List MicroOp} (h : ∀ j, .db j ∉ p) (b c : Byte) :
    doutAfter b p = doutAfter c p := by
  induction p using List.reverseRecOn with
  | nil => rfl
  | append_singleton p u ih =>
    have hp : ∀ j, .db j ∉ p := fun j hj => h j (List.mem_append_left _ hj)
    rw [doutAfter_snoc, doutAfter_snoc]
    cases u with
    | db j => exact absurd (by simp) (h j)
    | dh | dl => rfl
    | _ => exact ih hp

theorem clk_microStep {s : State} {p : List MicroOp} (h : s.clk = clkAfter p) (u : MicroOp) :
    (microStep s u).clk = clkAfter (p ++ [u]) := by
  rw [clkAfter_snoc]
  cases u with
  | cr | cf => rfl
  | _ => exact h

theorem dir_microStep {s : State} {p : List MicroOp} (h : ∀ d, dirAfter p = some d → s.dir = d) (u : MicroOp) :
    ∀ d, dirAfter (p ++ [u]) = some d → (microStep s u).dir = d := by
  rw [dirAfter_snoc]
  cases u with
  | diro | diri => exact fun _ => Option.some.inj
  | _ => exact h

/-- CNT does not wrap in a fall that finds it at most 11 (R15). -/
theorem cnt_microStep {s : State} {p : List MicroOp} {u : MicroOp} (h : s.cnt.toNat = cyclesAfter p)
    (hle : u = .cf → cyclesAfter p ≤ 11) : (microStep s u).cnt.toNat = cyclesAfter (p ++ [u]) := by
  rw [cyclesAfter_snoc]
  cases u with
  | cf =>
    have hlt := hle rfl
    show (s.cnt + 1).toNat = cyclesAfter p + 1
    rw [BitVec.toNat_add, show (1 : BitVec 4).toNat = 1 from rfl]
    omega
  | _ => exact h

theorem dout_microStep {s : State} {p : List MicroOp} {u : MicroOp} (h : ∀ v, doutAfter s.sr p = some v → s.dout = v)
    (hdb : ∀ i, u = .sm i → ∀ j, .db j ∉ p) :
    ∀ v, doutAfter (microStep s u).sr (p ++ [u]) = some v → (microStep s u).dout = v := by
  rw [doutAfter_snoc]
  cases u with
  | dh | dl | db _ => exact fun _ => Option.some.inj
  | sm i =>
    intro v hv
    exact h v ((doutAfter_eq_of_db_not_mem (hdb i rfl) _ _).trans hv)
  | _ => exact h

/-! ### The steps -/

/-- A micro-operation that is not END leads from a running frame to a running frame. -/
theorem midFrame_microStep {s : State} (hi : s.Inv) (hb : s.busy = true) {u : MicroOp} (hu : s.nextOp = some u)
    (hne : u ≠ .endFrame) : (microStep s u).MidFrame := by
  obtain ⟨-, hclk, hcnt, hdir, hdout⟩ := hi.midFrame hb
  rw [State.MidFrame, performed_microStep hu, opl_microStep]
  refine ⟨upc_microStep_lt hu hne, clk_microStep hclk u, cnt_microStep hcnt ?_, dir_microStep hdir u,
    dout_microStep hdout ?_⟩
  · rintro rfl
    exact cyclesAfter_le_of_nextOp_cf hi hb hu
  · rintro i rfl
    exact db_not_mem_of_nextOp_sm hi hb hu

/-- END leads from a running frame to a state between frames (R86, R88). -/
theorem betweenFrames_microStep_endFrame {s : State} (hi : s.Inv) (hb : s.busy = true)
    (hu : s.nextOp = some .endFrame) : (microStep s .endFrame).BetweenFrames := by
  have hcycles : cyclesAfter s.performed = 12 := by
    rw [performed_of_nextOp_endFrame hu, cyclesAfter_dropLast_mu]
  have hlast := (getElem?_mu_endFrame_iff s.opl s.upc.toNat).mp hu
  have hclk : s.clk = low := clk_eq_low hi hb hu (by simp) (by simp)
  have hcnt : s.cnt = 12 := cnt_eq_of_performed hi hb hcycles
  exact ⟨hclk, .inr ⟨(upc_microStep hu).trans hlast, hcnt⟩⟩

/-- Every micro-operation keeps the invariant. -/
theorem inv_microStep {s : State} (hi : s.Inv) (hb : s.busy = true) {u : MicroOp} (hu : s.nextOp = some u) :
    (microStep s u).Inv := by
  rw [State.Inv]
  by_cases hend : u = .endFrame
  · subst hend
    exact betweenFrames_microStep_endFrame hi hb hu
  · have hbusy : (microStep s u).busy = true :=
      (foldl_microStep_busy [u] s (by simpa using hend)).trans hb
    rw [if_pos hbusy]
    exact midFrame_microStep hi hb hu hend

/-- A state of the invariant stays one if START is accepted in it: the frame then begins with the clock low (R80). -/
theorem inv_started {s : State} (hi : s.Inv) (hb : s.busy = false) (i : Instr) : (started i s).Inv := by
  obtain ⟨hclk, -⟩ := hi.betweenFrames hb
  have hlen : ∀ op, 0 < (mu op).length := by intro op; cases op <;> decide
  exact ⟨hlen i.opSel, hclk, rfl, fun _ h => absurd h (by simp [State.performed, started, dirAfter]),
    fun _ h => absurd h (by simp [State.performed, started, doutAfter])⟩

theorem inv_takeReset (s : State) : s.takeReset.Inv := ⟨rfl, .inl ⟨rfl, rfl⟩⟩

/-- Settles O21: the machine is between frames at reset, with UPC and CNT at 0. -/
theorem invariantAtReset : Obligations.InvariantAtReset := by
  unfold Obligations.InvariantAtReset
  exact ⟨rfl, .inl ⟨rfl, rfl⟩⟩

/-- Settles O22: by the kind of step; a micro-operation moves each element on as the performed stretch grows by it, and
the other three kinds leave a state between frames or at the start of one. -/
theorem everyStepKeepsInvariant : Obligations.EveryStepKeepsInvariant := by
  unfold Obligations.EveryStepKeepsInvariant
  intro s t hi hstep
  obtain ⟨-, rfl⟩ | ⟨-, hb, u, hu, rfl⟩ | ⟨-, hb, -, i, -, rfl⟩ | ⟨-, -, -, rfl⟩ := step_cases hstep
  · exact inv_takeReset _
  · exact inv_microStep hi hb hu
  · rw [State.issue_idle (s := s.passInputs) hb]
    exact inv_started (s := s.passInputs) hi hb i
  · exact hi

end Sys2Proof.Proofs
end

section
/-! Decoding and encoding: the two are inverse to each other on the ten bits of a command word (R50, R51, R60). -/

namespace Sys2Proof.Proofs

open Sys2Proof.Machine

/-- The command word of an instruction has its operation's code and its byte as fields, and decoding reads just those. -/
theorem decodeWord_encode (i : Instr) : decodeWord (encode i) = i := by
  rw [decodeWord, encode, CommandWord.op_append, CommandWord.wdata_append, OpSel.ofCode_code, Instr.ofParts_parts]

theorem encode_decodeWord (w : CommandWord) : encode (decodeWord w) = w := by
  rw [encode, opSel_code_decodeWord, decodeWord, Instr.wdata_ofParts, CommandWord.append_fields]

/-- A command word taken as a number decodes as the word. -/
theorem decode_toNat (w : CommandWord) : decode w.toNat = .ok (decodeWord w) := by
  rw [decode, if_pos w.isLt, BitVec.ofNat_toNat, BitVec.setWidth_eq]

/-- A table row's number that fits its own bits and the ten of a command word is that word. -/
theorem decodeTableWord_eq_some {nbits n : Nat} {i : Instr} (h : decodeTableWord nbits n = some i) :
    decodeWord (BitVec.ofNat 10 (n % 2 ^ nbits)) = i := by
  rw [decodeTableWord, decode] at h
  by_cases hlt : n % 2 ^ nbits < 1024
  · rw [if_pos hlt] at h
    exact Option.some.inj h
  · rw [if_neg hlt] at h
    cases h

/-- Settles O1: the word's number is below 1024, so the decoders read the word itself. -/
theorem decodeInvertsEncode : Obligations.DecodeInvertsEncode := by
  unfold Obligations.DecodeInvertsEncode
  intro i _
  have hdecode : decode (encode i).toNat = .ok i := by rw [decode_toNat, decodeWord_encode]
  have hfits : (encode i).toNat % 2 ^ 16 = (encode i).toNat :=
    Nat.mod_eq_of_lt ((encode i).isLt.trans (by decide))
  exact ⟨hdecode, by rw [decodeTableWord, hfits, hdecode]⟩

/-- Settles O2: `encode` and `decodeWord` are inverse to each other, and `decode` tests the bound. -/
theorem everyCommandWordIsOneInstruction : Obligations.EveryCommandWordIsOneInstruction := by
  unfold Obligations.EveryCommandWordIsOneInstruction
  refine ⟨fun w => ⟨encode_decodeWord w, ?_⟩, fun n h => if_pos h, fun n h => if_neg (Nat.not_lt.mpr h)⟩
  rintro i rfl
  exact (decodeWord_encode i).symm

/-- Settles O3: each word is written out as the code of its operation over its byte. -/
theorem writtenWordsDecode : Obligations.WrittenWordsDecode := by
  unfold Obligations.WrittenWordsDecode
  exact ⟨decodeWord_encode (.ctrl 0x41), decodeWord_encode (.null 0x77), decodeWord_encode (.dout 0xA5),
    decodeWord_encode (.din 0x12)⟩

end Sys2Proof.Proofs
end

section
/-! Whose turn a step is (R79, R102), and what each kind of step reads of the port. -/

namespace Sys2Proof.Proofs

open Sys2Proof.Machine

/-- With no request the machine waits (log 10). -/
theorem step_wait {s : State} (hr : s.port.rst = false) (hb : s.busy = false) (hs : s.port.start = false) :
    step s = .next s.passInputs := by
  simp [step, nextTurn, hr, hb, hs]

/-- Settles O8: the four kinds of step, in the order in which `nextTurn` tests for them. -/
theorem priorityOfRequests : Obligations.PriorityOfRequests := by
  unfold Obligations.PriorityOfRequests
  exact ⟨fun s hr => ⟨_, step_reset hr, rfl, rfl, rfl, rfl, rfl, rfl, rfl, rfl⟩, fun s => step_busy, fun s => step_start,
    fun s => step_wait⟩

/-- Settles O9: the port's two fields are one command word, which `step` decodes; `withFetchWord` puts the fields of its
word on the port. -/
theorem stepRunsDecodedInstruction : Obligations.StepRunsDecodedInstruction := by
  unfold Obligations.StepRunsDecodedInstruction
  constructor
  · intro s i hr hb hs hi
    rw [decode_toNat] at hi
    rw [step_start hr hb hs, Except.ok.inj hi]
  · intro s nbits n i hi
    have hfields (cw : CommandWord) : decodeWord (cw.op ++ cw.wdata) = decodeWord cw := by
      rw [CommandWord.append_fields]
    exact (step_start (s := s.withFetchWord nbits n) rfl rfl rfl).trans
      (congrArg (exec · _) ((hfields _).trans (decodeTableWord_eq_some hi)))

/-- Settles O11: the codec's turn is the BUSY test, its step performs the next micro-operation, and a running frame has
one. -/
theorem codecStepRule : Obligations.CodecStepRule := by
  unfold Obligations.CodecStepRule
  refine ⟨?_, ?_, fun s => State.Inv.exists_nextOp⟩
  · intro s hr
    cases hb : s.busy with
    | false => simpa using nextTurn_idle_ne_codec s.port
    | true => simp [nextTurn, hr]
  · intro s u hr hb hu
    have hupc : (perform u s.passInputs).upc = s.upc := (perform_keeps u _).2.1
    exact ⟨_, step_codec hr hb hu, by rw [State.nextMicro, hupc]⟩

/-- Settles O12: a step of a busy codec reads `rst` and nothing else from the port: either port makes it the same reset or
the same codec step. -/
theorem portsIgnoredWhileBusy : Obligations.PortsIgnoredWhileBusy := by
  unfold Obligations.PortsIgnoredWhileBusy
  intro s p q ps hb hpq
  cases hq : q.rst with
  | true =>
    exact (step_reset (s := { s with inputs := p :: ps }) (hpq.trans hq)).trans
      (step_reset (s := { s with inputs := q :: ps }) hq).symm
  | false =>
    exact (step_busy (s := { s with inputs := p :: ps }) (hpq.trans hq) hb).trans
      (step_busy (s := { s with inputs := q :: ps }) hq hb).symm

/-- Settles O23: a reset, a START and a wait always answer a next state, and a running frame has a next
micro-operation. -/
theorem noStepStops : Obligations.NoStepStops := by
  unfold Obligations.NoStepStops
  intro s hi
  cases hr : s.port.rst with
  | true => exact ⟨_, step_reset hr⟩
  | false =>
    cases hb : s.busy with
    | true =>
      obtain ⟨u, hu⟩ := hi.exists_nextOp hb
      exact ⟨_, step_codec hr hb hu⟩
    | false =>
      cases hs : s.port.start with
      | true => exact ⟨_, (step_start hr hb hs).trans (exec_eq_issue _ _)⟩
      | false => exact ⟨_, step_wait hr hb hs⟩

end Sys2Proof.Proofs
end

section
/-! Which step writes which element (R19, R25, R40, R75 to R77). -/

namespace Sys2Proof.Proofs

open Sys2Proof.Machine

/-! ### What a micro-operation does not write, by element -/

section
variable {s : State} {u : MicroOp}

theorem eq_cr_or_cf_of_clk_ne (h : (microStep s u).clk ≠ s.clk) : u = .cr ∨ u = .cf := by
  cases u with
  | cr => exact .inl rfl
  | cf => exact .inr rfl
  | _ => exact absurd rfl h

theorem eq_cf_of_cnt_ne (h : (microStep s u).cnt ≠ s.cnt) : u = .cf := by
  cases u with
  | cf => rfl
  | _ => exact absurd rfl h

theorem eq_dh_or_dl_or_db_of_dout_ne (h : (microStep s u).dout ≠ s.dout) : u = .dh ∨ u = .dl ∨ ∃ i, u = .db i := by
  cases u with
  | dh => exact .inl rfl
  | dl => exact .inr (.inl rfl)
  | db i => exact .inr (.inr ⟨i, rfl⟩)
  | _ => exact absurd rfl h

theorem eq_diro_or_diri_of_dir_ne (h : (microStep s u).dir ≠ s.dir) : u = .diro ∨ u = .diri := by
  cases u with
  | diro => exact .inl rfl
  | diri => exact .inr rfl
  | _ => exact absurd rfl h

theorem eq_sm_of_sr_ne (h : (microStep s u).sr ≠ s.sr) : ∃ i, u = .sm i := by
  cases u with
  | sm i => exact ⟨i, rfl⟩
  | _ => exact absurd rfl h

theorem eq_endFrame_of_busy_ne (h : (microStep s u).busy ≠ s.busy) : u = .endFrame := by
  cases u with
  | endFrame => rfl
  | _ => exact absurd rfl h

/-- RXD after a micro-operation: END of a DIN moves SR there, and nothing else writes it (R86). -/
theorem rxd_microStep (s : State) (u : MicroOp) :
    (microStep s u).rxd = if s.opl = .din ∧ u = .endFrame then s.sr else s.rxd := by
  cases u with
  | endFrame => by_cases hdin : s.opl = .din <;> simp [microStep, hdin]
  | _ => exact (if_neg fun h => absurd h.2 (by simp)).symm

end

/-- A step of an idle codec that is not reset writes START's elements at most (R80). -/
theorem step_idle_keeps {s t : State} (hr : s.port.rst = false) (hb : s.busy = false) (h : step s = .next t) :
    t.clk = s.clk ∧ t.dout = s.dout ∧ t.dir = s.dir ∧ t.rxd = s.rxd ∧ t.hist = s.hist := by
  obtain ⟨hrst, -⟩ | ⟨-, hbusy, -⟩ | ⟨-, -, -, i, -, rfl⟩ | ⟨-, -, -, rfl⟩ := step_cases h
  · simp [hr] at hrst
  · simp [hb] at hbusy
  · rw [State.issue_idle (s := s.passInputs) hb]
    exact ⟨rfl, rfl, rfl, rfl, rfl⟩
  · exact ⟨rfl, rfl, rfl, rfl, rfl⟩

/-- A step of a running codec that is not reset is that of its next micro-operation. -/
theorem eq_microStep_of_step {s t : State} {u : MicroOp} (hr : s.port.rst = false) (hb : s.busy = true)
    (hu : s.nextOp = some u) (h : step s = .next t) : t = microStep s u :=
  Host.Outcome.next.inj (h.symm.trans (step_codec hr hb hu))

/-- Settles O25: the codec's step is that of the next micro-operation, and each element has its own writers. -/
theorem accessRights : Obligations.AccessRights := by
  unfold Obligations.AccessRights
  refine ⟨?_, fun s t => step_idle_keeps⟩
  intro s t u hr hb hu hstep
  obtain rfl := eq_microStep_of_step hr hb hu hstep
  obtain ⟨hopl, hupc, -⟩ := perform_keeps u s.passInputs
  refine ⟨hopl, congrArg (· + 1) hupc, eq_cr_or_cf_of_clk_ne, eq_cf_of_cnt_ne, eq_dh_or_dl_or_db_of_dout_ne,
    eq_diro_or_diri_of_dir_ne, eq_sm_of_sr_ne, fun hne => ?_, eq_endFrame_of_busy_ne⟩
  by_contra hnot
  exact hne ((rxd_microStep s u).trans (if_neg fun h => hnot h.symm))

/-- Settles O26: of the micro-operations the END of a DIN alone writes RXD, and no step of an idle codec does. -/
theorem receivedByteIsHeld : Obligations.ReceivedByteIsHeld := by
  unfold Obligations.ReceivedByteIsHeld
  intro s t hr hstep
  cases hb : s.busy with
  | false =>
    obtain ⟨-, -, -, hrxd, -⟩ := step_idle_keeps hr hb hstep
    simpa [State.portRdata] using hrxd
  | true =>
    rw [step_busy hr hb, codecStep_eq_next] at hstep
    obtain ⟨u, hu, rfl⟩ := hstep
    rw [State.passInputs_nextOp] at hu
    show (microStep s u).rxd = _
    simpa [hu, State.portRdata] using rxd_microStep s u

/-- Settles O24: with the clock high a fall or a sample is next, and neither writes direction or latch. -/
theorem lineStillWhileClockHigh : Obligations.LineStillWhileClockHigh := by
  unfold Obligations.LineStillWhileClockHigh
  intro s t hi hr hclk hstep
  cases hb : s.busy with
  | false =>
    obtain ⟨-, hdout, hdir, -, -⟩ := step_idle_keeps hr hb hstep
    exact ⟨hdir, hdout⟩
  | true =>
    obtain ⟨u, hu⟩ := hi.exists_nextOp hb
    obtain rfl := eq_microStep_of_step hr hb hu hstep
    obtain rfl | ⟨i, rfl⟩ := (clk_eq_high_iff hi hb hu).mp hclk <;> exact ⟨rfl, rfl⟩

/-! ### The clock edges and the sample -/

/-- Settles O18: a rise is neither a fall nor a sample, so it finds the clock low; a fall ends a cycle that is at most the
twelfth. -/
theorem clockEdges : Obligations.ClockEdges := by
  unfold Obligations.ClockEdges
  refine ⟨fun s hr hb hu => step_codec hr hb hu, fun s hr hb hu => step_codec hr hb hu, ?_, ?_⟩
  · intro s hi hb hu
    exact clk_eq_low hi hb hu (by simp) (by simp)
  · intro s hi hb hu
    obtain ⟨-, -, hcnt, -, -⟩ := hi.midFrame hb
    refine ⟨(clk_eq_high_iff hi hb hu).mpr (.inl rfl), ?_⟩
    rw [hcnt]
    exact cyclesAfter_le_of_nextOp_cf hi hb hu

/-- `SM` stands in DIN only, where the line has been made an input before it (R77). -/
theorem undriven_of_nextOp_sm {s : State} (hi : s.Inv) (hb : s.busy = true) {i : Fin 8} (hu : s.nextOp = some (.sm i)) :
    s.opl = .din ∧ dirAfter s.performed = some .input :=
  of_decide_eq_true (nextOp_of_table
    (fun op _ u p => decide ((∃ i, u = .sm i) → op = .din ∧ dirAfter p = some .input))
    (fun op => by cases op <;> decide) hi hb hu) ⟨i, rfl⟩

/-- `SM` stands directly between the rise and the fall of its cycle (R77, R78). -/
theorem getElem?_mu_around_sm {op : OpSel} {n : Nat} {i : Fin 8} (h : (mu op)[n]? = some (.sm i)) :
    (mu op)[n - 1]? = some .cr ∧ (mu op)[n + 1]? = some .cf := by
  have htable : ∀ op, ∀ n < 37, ∀ i, (mu op)[n]? = some (.sm i) →
      (mu op)[n - 1]? = some .cr ∧ (mu op)[n + 1]? = some .cf := by
    intro op; cases op <;> decide
  exact htable op n (lt_of_getElem?_mu h) i h

/-- Settles O19: the sample inserts the line's level into SR, and the tables say where the micro-programs hold it. -/
theorem sampleDataLine : Obligations.SampleDataLine := by
  unfold Obligations.SampleDataLine
  refine ⟨?_, ?_, fun op n i => getElem?_mu_around_sm⟩
  · intro s i hr hb hu
    exact ⟨_, step_codec hr hb hu, fun j => insertBit_getLsbD s.sr i j s.wire⟩
  · intro s i hi hb hu
    obtain ⟨hop, hin⟩ := undriven_of_nextOp_sm hi hb hu
    obtain ⟨-, -, hcnt, -, -⟩ := hi.midFrame hb
    have hdir : s.dir = .input := dir_eq_of_performed hi hb hin
    refine ⟨hop, ?_, (clk_eq_high_iff hi hb hu).mpr (.inr ⟨i, rfl⟩), hdir, State.wire_input hdir⟩
    rw [hcnt]
    exact cyclesAfter_of_nextOp_sm hi hb hu

end Sys2Proof.Proofs
end

section
/-! The form of the four micro-programs (R78, R81, R114). -/

namespace Sys2Proof.Proofs

open Sys2Proof.Machine

/-- Settles O27: the four checks of a micro-program's form, and the four lengths. -/
theorem microProgramsWellFormed : Obligations.MicroProgramsWellFormed := by
  unfold Obligations.MicroProgramsWellFormed
  refine ⟨fun op => ?_, length_muCtrl, length_muNull, length_muDout, length_muDin⟩
  cases op <;> decide

end Sys2Proof.Proofs
end

section
/-! Frames cut short or followed step by step: the state after the first `k` micro-operations of a frame, and a reset in
it (R35, R90, R106, R111). -/

namespace Sys2Proof.Proofs

open Sys2Proof.Machine

/-- The state of a frame of `i`, issued in `s`, after `k` of its micro-operations. -/
def frameAfter (i : Instr) (s : State) (k : Nat) : State := ((mu i.opSel).take k).foldl microStep (started i s)

/-- `k` steps without reset lead a started frame there. -/
theorem run_frameAfter {i : Instr} {s : State} {k : Nat} (hk : k ≤ frameSteps i) (hr : NoReset k s) :
    run k (started i s) = .next (frameAfter i s k) :=
  run_from_start rfl rfl hk hr

theorem length_take_mu {i : Instr} {k : Nat} (hk : k ≤ frameSteps i) : ((mu i.opSel).take k).length = k := by
  rw [List.length_take, ← frameSteps, Nat.min_eq_left hk]

theorem upc_frameAfter {i : Instr} {k : Nat} (hk : k ≤ frameSteps i) (s : State) :
    (frameAfter i s k).upc.toNat = k := by
  obtain ⟨-, hupc⟩ := foldl_microStep_inputs_upc ((mu i.opSel).take k) (started i s)
  have hle : frameSteps i ≤ 37 := length_mu_le i.opSel
  rw [frameAfter, hupc, length_take_mu hk]
  show (0#6 + BitVec.ofNat 6 k).toNat = k
  rw [BitVec.zero_add, BitVec.toNat_ofNat]
  omega

theorem inputs_frameAfter {i : Instr} {k : Nat} (hk : k ≤ frameSteps i) (s : State) :
    (frameAfter i s k).inputs = s.inputs.drop k := by
  obtain ⟨hinputs, -⟩ := foldl_microStep_inputs_upc ((mu i.opSel).take k) (started i s)
  rw [frameAfter, hinputs, length_take_mu hk]
  rfl

/-- A frame is busy before its END, and not after it (R35, R86). -/
theorem busy_frameAfter_iff {i : Instr} {k : Nat} (hk : k ≤ frameSteps i) (s : State) :
    (frameAfter i s k).busy = true ↔ k < frameSteps i := by
  obtain hlt | rfl := hk.lt_or_eq
  · have hbusy : (frameAfter i s k).busy = true := by
      refine (foldl_microStep_busy _ _ fun u hu => endFrame_not_mem_dropLast i.opSel u ?_).trans rfl
      rw [List.dropLast_eq_take]
      exact List.take_subset_take_left _ (Nat.le_sub_one_of_lt hlt) hu
    exact iff_of_true hbusy hlt
  · have hidle : (frameAfter i s (frameSteps i)).busy = false := by
      rw [frameAfter, frameSteps, List.take_length, foldl_mu_eq_microStep_endFrame]
      rfl
    simp [hidle]

/-- Settles O38: UPC counts the micro-operations performed, and END is the last of them. -/
theorem busyForExactlyTheFrame : Obligations.BusyForExactlyTheFrame := by
  unfold Obligations.BusyForExactlyTheFrame
  intro i s hb hr
  refine ⟨_, exec_idle hb i, fun k hk => ⟨_, run_frameAfter hk ?_, busy_frameAfter_iff hk s, upc_frameAfter hk s⟩⟩
  exact fun p hp => hr p (List.take_subset_take_left _ hk hp)

/-- Settles O37: the seven micro-operations of either data frame are two driven cycles and the change that follows them,
which is `DIRI` in DIN and `DL` in DOUT. -/
theorem lineModeAfterSecondCycle : Obligations.LineModeAfterSecondCycle := by
  unfold Obligations.LineModeAfterSecondCycle
  intro b s hb hr
  have hdin : 7 ≤ frameSteps (.din b) := show 7 ≤ (mu .din).length by decide
  have hdout : 7 ≤ frameSteps (.dout b) := show 7 ≤ (mu .dout).length by decide
  exact ⟨⟨_, _, exec_idle hb _, run_frameAfter hdin hr, rfl, rfl, rfl, rfl⟩,
    ⟨_, _, exec_idle hb _, run_frameAfter hdout hr, rfl, rfl, rfl, rfl⟩⟩

/-! ### Reset -/

/-- The clock edges of any beginning of a micro-program: whole cycles, and a rise more if the clock is high then. -/
theorem filterMap_clockEdge_take_mu (op : OpSel) : ∀ k < 37, ((mu op).take k).filterMap clockEdge =
    (List.replicate (cyclesAfter ((mu op).take k)) [high, low]).flatten ++
      if clkAfter ((mu op).take k) = high then [high] else [] := by
  cases op <;> decide

/-- Every state of a run from a state of the invariant is one. -/
theorem inv_run {n : Nat} {s t : State} (hi : s.Inv) (h : run n s = .next t) : t.Inv := by
  induction n generalizing s with
  | zero => exact Host.Outcome.next.inj h ▸ hi
  | succ n ih =>
    rw [run] at h
    cases hs : step s with
    | next r => exact ih (everyStepKeepsInvariant s r hi hs) (by simpa [hs] using h)
    | fault f => simp [hs] at h
    | refused r => simp [hs] at h

/-- The clock edges a frame has made after `k` micro-operations: CNT whole cycles, and a rise more if the clock is high
(R111). -/
theorem exists_edges_frameAfter {i : Instr} {s : State} {k : Nat} (hi : s.Inv) (hb : s.busy = false)
    (hk : k < frameSteps i) (hr : NoReset k s) :
    ∃ es, (frameAfter i s k).hist = es.reverse ++ s.hist ∧ edgesOf es =
      (List.replicate (frameAfter i s k).cnt.toNat [high, low]).flatten ++
        if (frameAfter i s k).clk = high then [high] else [] := by
  have hinv : (frameAfter i s k).Inv := inv_run (inv_started hi hb i) (run_frameAfter hk.le hr)
  have hperformed : (frameAfter i s k).performed = (mu i.opSel).take k := by
    rw [State.performed, upc_frameAfter hk.le, frameAfter, foldl_microStep_opl]
    rfl
  obtain ⟨-, hclk, hcnt, -, -⟩ := hinv.midFrame ((busy_frameAfter_iff hk.le s).mpr hk)
  obtain ⟨es, hhist, hedges, -, -⟩ := foldl_microStep_line ((mu i.opSel).take k) (started i s)
  rw [hcnt, hclk, hperformed]
  exact ⟨es, hhist, hedges.trans (filterMap_clockEdge_take_mu _ k (hk.trans_le (length_mu_le _)))⟩

/-- Settles O7: the step is `takeReset`, which reads only clock and history; the history it finds holds the edges of the
micro-operations performed, and CNT and the clock follow those too. -/
theorem resetCutsFrameShort : Obligations.ResetCutsFrameShort := by
  unfold Obligations.ResetCutsFrameShort
  constructor
  · intro s hi hb hr
    obtain ⟨u, hu⟩ := hi.exists_nextOp hb
    have hclk : s.clk = high ↔ ∃ u, s.nextOp = some u ∧ (u = .cf ∨ ∃ i, u = .sm i) := by
      simpa [hu] using clk_eq_high_iff hi hb hu
    exact ⟨_, step_reset hr, inv_takeReset _, rfl, rfl, rfl, rfl, rfl, rfl, rfl, rfl, rfl, rfl, rfl,
      fun b r => step_reset (s := { s with sr := b, rxd := r }) hr, hclk⟩
  · intro i s k p hi hb hk hr hp hrst
    obtain ⟨es, hhist, hedges⟩ := exists_edges_frameAfter hi hb hk hr
    have hport : (frameAfter i s k).port = p := by
      rw [State.port, inputs_frameAfter hk.le, List.headD_eq_head?_getD, List.head?_drop, hp, Option.getD_some]
    exact ⟨_, _, _, es, exec_idle hb i, run_frameAfter hk.le hr, step_reset (hport ▸ hrst),
      (busy_frameAfter_iff hk.le s).mpr hk, upc_frameAfter hk.le s, hhist, hedges, rfl, rfl, rfl, rfl, rfl, rfl⟩

end Sys2Proof.Proofs
end

section
/-! The micro-programs and the frame tables agree: what each operation leaves in an idle state is its frame-level summary
(R53 to R56, R82 to R85). -/

namespace Sys2Proof.Proofs

open Sys2Proof.Machine

/-- The events an operation's micro-program adds to the history are those of its frame table, played cycle by cycle: both
compute to the same list. -/
theorem hist_foldl_mu_eq_playCycles (i : Instr) (s : State) :
    ((mu i.opSel).foldl microStep (started i s)).hist = (playCycles (cyclesOf i s.dout) s.hist).1 := by
  cases i with
  | ctrl b => rfl
  | null w => rfl
  | dout b => rfl
  | din w => rfl

/-- The eight insertions of a DIN leave the byte of the frame table's samples in SR (R58, R77). -/
theorem sr_foldl_mu_din (w : Byte) (s : State) :
    ((mu .din).foldl microStep (started (.din w) s)).sr = byteOfBits (frameSamples (.din w) s) :=
  insertBit_all w _ _ _ _ _ _ _ _

/-- A micro-program, performed from the state START leaves, ends in the frame-level summary. -/
theorem foldl_mu_eq_frameEnd (i : Instr) (s : State) :
    (mu i.opSel).foldl microStep (started i s) =
      { frameEnd i s with inputs := s.inputs.drop (frameSteps i) } := by
  have hframe := eq_of_foldl_mu (s := started i s) rfl
  rw [show (started i s).opl = i.opSel from rfl, hist_foldl_mu_eq_playCycles] at hframe
  cases i with
  | ctrl b => exact hframe
  | null w => exact hframe
  | dout b => exact hframe
  | din w =>
    rw [show (Instr.din w).opSel = .din from rfl, sr_foldl_mu_din] at hframe
    exact hframe

/-- Settles O28: the run performs the micro-program, and that ends in the frame-level summary. -/
theorem microProgramsRefineFrames : Obligations.MicroProgramsRefineFrames := by
  unfold Obligations.MicroProgramsRefineFrames
  intro i s hb hr
  rw [← foldl_mu_eq_frameEnd]
  exact transacts_foldl_mu hb hr

/-- Settles O39: the frame-level summary says how each operation leaves the line. -/
theorem lineBetweenFrames : Obligations.LineBetweenFrames := by
  unfold Obligations.LineBetweenFrames
  constructor
  · intro i s hb hr
    refine ⟨_, microProgramsRefineFrames i s hb hr, ?_⟩
    cases i with
    | ctrl b => exact ⟨rfl, rfl, rfl, rfl⟩
    | null w => exact ⟨rfl, rfl, rfl⟩
    | dout b => exact ⟨rfl, rfl, rfl, rfl⟩
    | din w => exact ⟨rfl, rfl, rfl⟩
  · intro s hr hb hs
    exact ⟨_, step_wait hr hb hs, rfl⟩

end Sys2Proof.Proofs
end

section
/-! Reception: the events of a DIN, the byte of its samples, and where the samples come from (R38, R58, R85, R89). -/

namespace Sys2Proof.Proofs

open Sys2Proof.Machine

/-- The two edges of a cycle without a sample, with the latch high (R78). -/
def pulseEvents (d : Dir) : List LineEvent := [.rise d high, .fall d high]

/-- The events of a DIN that samples the levels `v`: two cycles driven high, one not driven, eight sampled, one not driven
(R56). -/
def dinEvents (v : Fin 8 → Level) : List LineEvent :=
  pulseEvents .output ++ pulseEvents .output ++ pulseEvents .input ++
    (List.ofFn v).flatMap (fun x => [LineEvent.rise .input high, .sample x, .fall .input high]) ++ pulseEvents .input

/-- The wire string of a DIN that samples the levels `vs` (R52, R56). -/
def dinWire (vs : List Level) : List WireSym := headerWire .din ++ vs.map .sampled ++ [.undriven]

theorem samplesOf_dinEvents (v : Fin 8 → Level) : samplesOf (dinEvents v) = List.ofFn v := rfl

theorem wireOf_dinEvents (v : Fin 8 → Level) : wireOf (dinEvents v) = dinWire (List.ofFn v) := rfl

/-- The index of sample `i` among these events: seven of them before the first sample, three from each to the next. -/
def sampleIndex (i : Fin 8) : Nat := 7 + 3 * i.val

/-- The table of DIN plays `dinEvents` of the levels it samples, and each of these is what `env` answers to the history
before it (R38). -/
theorem playCycles_din (w : Byte) (latch : Level) (h : List LineEvent) :
    ∃ v : Fin 8 → Level, playCycles (cyclesOf (.din w) latch) h = ((dinEvents v).reverse ++ h, List.ofFn v) ∧
      ∀ i, v i = Config.env (((dinEvents v).take (sampleIndex i)).reverse ++ h) := by
  refine ⟨(playCycles (cyclesOf (.din w) latch) h).2.get, rfl, fun i => ?_⟩
  fin_cases i <;> rfl

/-- Each level that makes a byte is the bit of the byte with its index (R58). -/
theorem getLsbD_byteOfBits (v : Fin 8 → Level) (i : Fin 8) : (byteOfBits (List.ofFn v)).getLsbD i.val = v i := by
  rw [show List.ofFn v = [v 0, v 1, v 2, v 3, v 4, v 5, v 6, v 7] from rfl, ← insertBit_all 0]
  simp only [insertBit_getLsbD]
  fin_cases i <;> rfl

/-- The levels of a byte on the wire are its bits (R31, R57). -/
theorem bitsOfByte_eq_getLsbD (b : Byte) : bitsOfByte b = [b.getLsbD 0, b.getLsbD 1, b.getLsbD 2, b.getLsbD 3,
    b.getLsbD 4, b.getLsbD 5, b.getLsbD 6, b.getLsbD 7] := by
  simp [bitsOfByte, wireOrder, bitOf_eq_getLsbD]

/-- The byte of eight levels has these levels on the wire (R57, R58). -/
theorem bitsOfByte_byteOfBits (v : Fin 8 → Level) : bitsOfByte (byteOfBits (List.ofFn v)) = List.ofFn v := by
  show List.ofFn (bitOf _) = List.ofFn v
  refine congrArg List.ofFn (funext fun i => ?_)
  rw [bitOf_eq_getLsbD, getLsbD_byteOfBits]

/-- A DIN issued in an idle state and not reset: its end, its events, and the levels it sampled. -/
theorem din_transacts {w : Byte} {s : State} (hb : s.busy = false) (hr : NoReset 36 s) :
    ∃ (u : State) (v : Fin 8 → Level), Transacts (.din w) s u ∧
      u = { s with
        busy := false, opl := .din, sr := byteOfBits (List.ofFn v), upc := 36, cnt := 12, clk := low, dout := high
        dir := .input, rxd := byteOfBits (List.ofFn v), hist := (dinEvents v).reverse ++ s.hist
        inputs := s.inputs.drop 36 } ∧
      ∀ i, v i = Config.env (((dinEvents v).take (sampleIndex i)).reverse ++ s.hist) := by
  obtain ⟨v, hplay, henv⟩ := playCycles_din w s.dout s.hist
  refine ⟨_, v, microProgramsRefineFrames (.din w) s hb hr, ?_, henv⟩
  rw [frameEnd, frameSamples, hplay]
  rfl

/-- Settles O32: the events of the frame have the wire string and the samples asked for, whatever the levels are. -/
theorem dinCompletes : Obligations.DinCompletes := by
  unfold Obligations.DinCompletes
  intro w s hb hr
  obtain ⟨u, v, ⟨t, hexec, hrun⟩, hu, -⟩ := din_transacts (w := w) hb hr
  obtain rfl : t = started (.din w) s := Host.Outcome.next.inj (hexec.symm.trans (exec_idle hb _))
  have hbits := (bitsOfByte_eq_getLsbD _).symm.trans (bitsOfByte_byteOfBits v)
  exact ⟨rfl, _, u, dinEvents v, _, hexec, rfl, hrun, hu, (samplesOf_dinEvents v).trans hbits.symm,
    (wireOf_dinEvents v).trans (congrArg dinWire hbits.symm)⟩

/-- Settles O33: the history cut off before sample `i` ends in the rise of cycle 4 + i, and `env` answers to it. -/
theorem dinSamplesComeFromEnv : Obligations.DinSamplesComeFromEnv := by
  unfold Obligations.DinSamplesComeFromEnv
  intro w s hb hr
  obtain ⟨u, v, htransacts, rfl, henv⟩ := din_transacts (w := w) hb hr
  refine ⟨_, dinEvents v, htransacts, rfl, fun i => ?_⟩
  have hbit : (byteOfBits (List.ofFn v)).getLsbD i.val = v i := getLsbD_byteOfBits v i
  refine ⟨(dinEvents v).take (sampleIndex i), (dinEvents v).drop (sampleIndex i + 1), ?_, ?_, hbit.trans (henv i)⟩
  · rw [hbit]
    fin_cases i <;> rfl
  · fin_cases i <;> rfl

/-- Settles O42: the byte of the bits of `v` is `v`. -/
theorem receivedByteIsPresentedByte : Obligations.ReceivedByteIsPresentedByte := by
  unfold Obligations.ReceivedByteIsPresentedByte
  intro w v s hb hr henv
  have hbyte : byteOfBits (frameSamples (.din w) s) = v := by rw [henv, byteOfBits_bitsOfByte]
  exact ⟨_, microProgramsRefineFrames (.din w) s hb hr, hbyte, hbyte⟩

end Sys2Proof.Proofs
end

section
/-! The reference decoder on a driven frame (R64, R89). -/

namespace Sys2Proof.Proofs

open Sys2Proof.Machine

/-- Settles O40: the decoder tests cycle 1, then reads cycle 2 and the byte of the eight levels. -/
theorem frameDecodeReadsTypeAndByte : Obligations.FrameDecodeReadsTypeAndByte := by
  unfold Obligations.FrameDecodeReadsTypeAndByte
  intro l1 l2 l3 l12 b
  rw [← bitsOfByte_eq_getLsbD]
  have hdecode : frameDecode ([l1, l2, l3] ++ bitsOfByte b ++ [l12]) =
      if l1 then .frame (if l2 then .data else .control) (byteOfBits (bitsOfByte b)) else .noFrame := rfl
  rw [hdecode, byteOfBits_bitsOfByte]
  cases l2 <;> rfl

/-- A driven frame, decoded from the wire: the type its cycle 2 says, and the byte START loaded. -/
theorem driven_roundTrip {i : Instr} {s : State} (hop : i.opSel = .ctrl ∨ i.opSel = .dout) (hb : s.busy = false)
    (hr : NoReset (frameSteps i) s) :
    ∃ u es ls, Transacts i s u ∧ u.hist = es.reverse ++ s.hist ∧ drivenLevels (wireOf es) = some ls ∧
      ls.length = 12 ∧
      frameDecode ls = .frame (if i.opSel.code.getLsbD 1 = low then .control else .data) i.wdata := by
  have hdin : i.opSel ≠ .din := by rcases hop with h | h <;> simp [h]
  obtain ⟨es, hhist, hwire⟩ := draws_mu_driven hop (started i s)
  refine ⟨_, es, _, transacts_foldl_mu hb hr, hhist, ?_, ?_,
    frameDecodeReadsTypeAndByte high (i.opSel.code.getLsbD 1) low low i.wdata⟩
  · rw [← List.append_nil es, hwire, headerWire, if_neg hdin]
    rfl
  · rfl

/-- Settles O41: bit 1 of the code is 0 for CTRL and 1 for DOUT, and cycle 2 carries it. -/
theorem roundTrip : Obligations.RoundTrip := by
  unfold Obligations.RoundTrip
  intro b s hb hr
  constructor
  · simpa [Instr.opSel, OpSel.code, Instr.wdata] using driven_roundTrip (i := .ctrl b) (.inl rfl) hb hr
  · simpa [Instr.opSel, OpSel.code, Instr.wdata] using driven_roundTrip (i := .dout b) (.inr rfl) hb hr

end Sys2Proof.Proofs
end

section
/-! A blocking host's list of operations and resets, action by action (R8, R36, R39, R62). -/

namespace Sys2Proof.Proofs

open Sys2Proof.Machine

/-- What a blocking host presents for one action. -/
def actPorts : HostAct → List PortIn
  | .issue i => startPort i :: List.replicate (frameSteps i) PortIn.quiet
  | .reset => [resetPort]

theorem hostScript_cons (a : HostAct) (as : List HostAct) : hostScript (a :: as) = actPorts a ++ hostScript as := by
  cases a <;> rfl

/-- A state with other inputs still to come (R20). -/
def presenting (s : State) (ps : List PortIn) : State := { s with inputs := ps }

theorem presenting_presenting (s : State) (ps qs : List PortIn) :
    presenting (presenting s ps) qs = presenting s qs := rfl

theorem presenting_eq {s : State} {ps : List PortIn} (h : s.inputs = ps) : presenting s ps = s := by
  subst h; rfl

theorem passInputs_eq_presenting {s : State} {p : PortIn} {ps : List PortIn} (h : s.inputs = p :: ps) :
    s.passInputs = presenting s ps := by
  rw [State.passInputs, h]; rfl

theorem frameEnd_presenting (i : Instr) (s : State) (ps : List PortIn) :
    frameEnd i (presenting s ps) = presenting (frameEnd i s) ps := by
  cases i <;> rfl

/-- What the host is still to present plays no part in an action. -/
theorem afterAct_presenting (a : HostAct) (s : State) (ps : List PortIn) :
    afterAct (presenting s ps) a = presenting (afterAct s a) ps := by
  cases a with
  | issue i => exact frameEnd_presenting i s ps
  | reset => rfl

theorem busy_afterAct (s : State) (a : HostAct) : (afterAct s a).busy = false := by
  cases a with
  | issue i => cases i <;> rfl
  | reset => rfl

/-- The command port of an operation makes an idle codec accept that operation. -/
theorem step_startPort {i : Instr} {s : State} {ps : List PortIn} (hb : s.busy = false)
    (hin : s.inputs = startPort i :: ps) : step s = exec i (presenting s ps) := by
  have hport : s.port = startPort i := by rw [State.port, hin]; rfl
  rw [step_start (by rw [hport]; rfl) hb (by rw [hport]; rfl), hport, passInputs_eq_presenting hin]
  exact congrArg (exec · _) (decodeWord_encode i)

theorem step_resetPort {s : State} {ps : List PortIn} (hin : s.inputs = resetPort :: ps) :
    step s = .next (presenting s ps).takeReset := by
  have hport : s.port = resetPort := by rw [State.port, hin]; rfl
  rw [step_reset (by rw [hport]; rfl), passInputs_eq_presenting hin]

/-- An operation runs to its END while the host presents nothing, and uses up just the inputs of its own steps. -/
theorem transacts_quiet (i : Instr) {s : State} (ps : List PortIn) (hb : s.busy = false) :
    Transacts i (presenting s (List.replicate (frameSteps i) PortIn.quiet ++ ps)) (presenting (frameEnd i s) ps) := by
  have hquiet : NoReset (frameSteps i) (presenting s (List.replicate (frameSteps i) PortIn.quiet ++ ps)) := by
    intro p hp
    rw [presenting, List.take_left' List.length_replicate] at hp
    rw [List.eq_of_mem_replicate hp]
    rfl
  have htransacts := microProgramsRefineFrames i (presenting s (_ ++ ps)) hb hquiet
  rw [frameEnd_presenting] at htransacts
  simpa only [presenting, List.drop_left' List.length_replicate] using htransacts

/-- The ports of one action, presented to an idle codec, perform that action and are used up by it (R36, R39). -/
theorem run_actPorts {a : HostAct} {s : State} {ps : List PortIn} (hb : s.busy = false)
    (hin : s.inputs = actPorts a ++ ps) :
    run (actPorts a).length s = .next (presenting (afterAct s a) ps) := by
  cases a with
  | issue i =>
    have hstart : s.inputs = startPort i :: (List.replicate (frameSteps i) PortIn.quiet ++ ps) := hin
    obtain ⟨t, hexec, hrun⟩ := transacts_quiet i ps hb
    rw [actPorts, List.length_cons, List.length_replicate, run, step_startPort hb hstart, hexec]
    exact hrun
  | reset =>
    rw [actPorts, List.length_singleton, run, step_resetPort hin]
    rfl

/-- A list of actions, begun with nothing presented, ends with the run over (R8). -/
theorem runOver_foldl_afterAct (as : List HostAct) {s : State} (hb : s.busy = false) :
    (as.foldl afterAct (presenting s [])).runOver = true := by
  induction as generalizing s with
  | nil => simp [State.runOver, presenting, hb]
  | cons a as ih =>
    rw [List.foldl_cons, afterAct_presenting]
    exact ih (busy_afterAct s a)

/-- The script of a list of actions performs them one after another. -/
theorem run_hostScript {as : List HostAct} {s : State} (hb : s.busy = false) (hin : s.inputs = hostScript as) :
    run (hostScript as).length s = .next (as.foldl afterAct (presenting s [])) := by
  induction as generalizing s with
  | nil => exact congrArg _ (presenting_eq hin).symm
  | cons a as ih =>
    rw [hostScript_cons] at hin ⊢
    rw [List.length_append, run_add (run_actPorts hb hin),
      ih (s := presenting (afterAct s a) (hostScript as)) (busy_afterAct s a) rfl, presenting_presenting,
      List.foldl_cons, afterAct_presenting]

/-- Settles O43: each action uses up its own ports and leaves the codec idle for the next. -/
theorem operationsRunInIssueOrder : Obligations.OperationsRunInIssueOrder := by
  unfold Obligations.OperationsRunInIssueOrder
  intro as s hb hin
  exact ⟨run_hostScript hb hin, runOver_foldl_afterAct as hb⟩

end Sys2Proof.Proofs
end
